-- ==== Sys2Proof/Word.lean ====
section
/-! DEFINITION. The word types: bytes, 32-bit words, four-byte quads (one bus word's bytes, one AES
column), 16-byte blocks (keys, IVs, cipher blocks) and the 6-byte salt. Their accessors, byte lanes
and arithmetic are in Machine/Bytes.lean. -/

namespace Sys2Proof

/-- A byte (00_scope.md R8: unsigned). -/
abbrev Byte := BitVec 8

/-- A 32-bit register, command or bus word (00_scope.md R7: bit 0 is the least significant). -/
abbrev Word := BitVec 32

/-- A block offset 0x000 to 0xFFF in the host window (20_memory.md R50). -/
abbrev Offset := BitVec 12

/-- Four bytes in index order: the bytes of one bus word of a byte array (20_memory.md R57), one AES
column (44_block_primitive.md R182), one word of the AES key schedule (R186). -/
structure Quad where
  b0 : Byte
  b1 : Byte
  b2 : Byte
  b3 : Byte
  deriving DecidableEq, Repr, Inhabited

/-- Sixteen bytes `X[0..15]` in index order, as four quads: `X[4k + m]` is byte `m` of quad `k`
(10_state.md R32, R33, R35, R36; 44_block_primitive.md R182). -/
structure Block where
  q0 : Quad
  q1 : Quad
  q2 : Quad
  q3 : Quad
  deriving DecidableEq, Repr, Inhabited

/-- The six bytes `SALT[0..5]` (10_state.md R34). -/
structure Salt where
  s0 : Byte
  s1 : Byte
  s2 : Byte
  s3 : Byte
  s4 : Byte
  s5 : Byte
  deriving DecidableEq, Repr, Inhabited

/-- Four zero bytes. -/
def Quad.zero : Quad := ⟨0, 0, 0, 0⟩

/-- Sixteen zero bytes (10_state.md R41: SKEY and SIV at reset). -/
def Block.zero : Block := ⟨.zero, .zero, .zero, .zero⟩

/-- Six zero bytes (10_state.md R41: SALT at reset). -/
def Salt.zero : Salt := ⟨0, 0, 0, 0, 0, 0⟩

end Sys2Proof
end

