-- ==== Sys2Proof/Syntax.lean ====
section
/-! DEFINITION. The commands: one constructor per row of spec/opcode_table.json (30_encoding.md R82). -/

namespace Sys2Proof

/-- The buffer a GETBW reads: its SRC field (30_encoding.md R83). -/
inductive BufSel where
  /-- SRC = 0 -/
  | din
  /-- SRC = 1 -/
  | dout
  deriving DecidableEq, Repr

/-- A command. `getbw`'s operands are those of R83: the buffer, the stream bit number `start`, the
width `n` and the little-endian flag; both numbers are taken as is, unsigned. -/
inductive Instr where
  /-- 40_command_cycle.md R106 -/
  | nop
  /-- 42_key_derivation.md R140 -/
  | derive
  /-- 43_frame_cipher.md R163 -/
  | encrypt
  /-- 43_frame_cipher.md R165 -/
  | decrypt
  /-- 41_bitreader.md R120 -/
  | getbw (src : BufSel) (start : Nat) (n : Nat) (le : Bool)
  /-- 42_key_derivation.md R142 -/
  | clear
  deriving DecidableEq, Repr

end Sys2Proof
end

