-- ==== Sys2Proof/WellFormed.lean ====
section
/-! DEFINITION. Which commands an encoding can hold (30_encoding.md R80, R83, R87): START has 16 bits
and BITLEN has 6. A width outside BITLEN_VALID is well formed (R85): GETBW's own checks reject it. -/

namespace Sys2Proof

/-- `start` fits START: 0 to 65535 (R83). -/
def startFits (start : Nat) : Bool := decide (start < 65536)

/-- `n` fits BITLEN: 0 to 63 (R83). -/
def widthFits (n : Nat) : Bool := decide (n < 64)

/-- The operands of a command fit its fields. -/
def Instr.wellFormed : Instr → Bool
  | .nop => true
  | .derive => true
  | .encrypt => true
  | .decrypt => true
  | .getbw _ start n _ => startFits start && widthFits n
  | .clear => true

end Sys2Proof
end

