-- ==== Sys2Proof/Decode.lean ====
section
/-! DEFINITION. Decoding and encoding of the 32-bit command word (30_encoding.md R80 to R87). The
decoder is total (R86): it answers a command or names the clause of R84 that makes the word illegal. -/

namespace Sys2Proof

/-- Why a command word is illegal (R84). -/
inductive DecodeError where
  /-- (a) OP is 0x6 to 0xF. -/
  | reservedOp
  /-- (b) a format N word with any of bits 31:4 set. -/
  | formatNBitsSet
  /-- (c) a format B word with any of bits 7:6 or 15:14 set. -/
  | formatBReservedSet
  deriving DecidableEq, Repr

/-- Field OP, bits 3:0 (R80). -/
def opField (w : Word) : BitVec 4 := w.extractLsb' 0 4

/-- Bits 31:4, which a format N word must leave zero (R81). -/
def upperField (w : Word) : BitVec 28 := w.extractLsb' 4 28

/-- Field LE, bit 4 (R80). -/
def leBit (w : Word) : Bool := w.getLsbD 4

/-- Field SRC, bit 5 (R80). -/
def srcBit (w : Word) : Bool := w.getLsbD 5

/-- Field RES0, bits 7:6 (R80). -/
def res0Field (w : Word) : BitVec 2 := w.extractLsb' 6 2

/-- Field BITLEN, bits 13:8 (R80). -/
def bitlenField (w : Word) : BitVec 6 := w.extractLsb' 8 6

/-- Field RES1, bits 15:14 (R80). -/
def res1Field (w : Word) : BitVec 2 := w.extractLsb' 14 2

/-- Field START, bits 31:16 (R80). -/
def startField (w : Word) : BitVec 16 := w.extractLsb' 16 16

/-- The buffer an SRC bit selects (R83). -/
def bufOfSrc (src : Bool) : BufSel := if src then .dout else .din

/-- The SRC bit of a buffer (R83, R87). -/
def srcOfBuf : BufSel → Bool
  | .din => false
  | .dout => true

/-- A format N word: `i` when bits 31:4 are zero (R81). -/
def decodeFormatN (w : Word) (i : Instr) : Except DecodeError Instr :=
  if upperField w = 0 then .ok i else .error .formatNBitsSet

/-- A format B word: GETBW when both reserved fields are zero (R81, R83). -/
def decodeFormatB (w : Word) : Except DecodeError Instr :=
  if res0Field w = 0 ∧ res1Field w = 0 then
    .ok (.getbw (bufOfSrc (srcBit w)) (startField w).toNat (bitlenField w).toNat (leBit w))
  else .error .formatBReservedSet

/-- The command a word stands for, or why it is illegal (R82, R84, R86). -/
def decode (w : Word) : Except DecodeError Instr :=
  match (opField w).toNat with
  | 0 => decodeFormatN w .nop
  | 1 => decodeFormatN w .derive
  | 2 => decodeFormatN w .encrypt
  | 3 => decodeFormatN w .decrypt
  | 4 => decodeFormatB w
  | 5 => decodeFormatN w .clear
  | _ => .error .reservedOp

/-- A format N word (R81): bits 31:4 zero. -/
def encodeFormatN (op : BitVec 4) : Word := op.setWidth 32

/-- A format B word (R81), as R87 writes it:
`(start << 16) OR (n << 8) OR (s << 5) OR (le << 4) OR 0x4`, each operand cut to its field. -/
def encodeFormatB (src : Bool) (start n : Nat) (le : Bool) : Word :=
  ((BitVec.ofNat 16 start).setWidth 32 <<< 16) ||| ((BitVec.ofNat 6 n).setWidth 32 <<< 8)
    ||| ((BitVec.ofBool src).setWidth 32 <<< 5) ||| ((BitVec.ofBool le).setWidth 32 <<< 4) ||| 4#32

/-- The word of a well-formed command (R81, R82, R87). -/
def encode : Instr → Word
  | .nop => encodeFormatN 0
  | .derive => encodeFormatN 1
  | .encrypt => encodeFormatN 2
  | .decrypt => encodeFormatN 3
  | .getbw src start n le => encodeFormatB (srcOfBuf src) start n le
  | .clear => encodeFormatN 5

/-- A row's `mask` in spec/opcode_table.json: the bits its `match` fixes. -/
def rowMask : Instr → Word
  | .nop => 0xFFFFFFFF#32
  | .derive => 0xFFFFFFFF#32
  | .encrypt => 0xFFFFFFFF#32
  | .decrypt => 0xFFFFFFFF#32
  | .getbw _ _ _ _ => 0x0000C0CF#32
  | .clear => 0xFFFFFFFF#32

/-- A row's `match` in spec/opcode_table.json. -/
def rowMatch : Instr → Word
  | .nop => 0x00000000#32
  | .derive => 0x00000001#32
  | .encrypt => 0x00000002#32
  | .decrypt => 0x00000003#32
  | .getbw _ _ _ _ => 0x00000004#32
  | .clear => 0x00000005#32

/-- The instruction the decoder reads from a table row's bits `w`. A command is one 32-bit word (R80),
never stored in a memory, so the table's bit numbers are the word's own; bits at and above `nbits`
are 0. -/
def decodeTableWord (nbits w : Nat) : Option Instr := (decode (BitVec.ofNat 32 (w % 2 ^ nbits))).toOption

/-- The name of a buffer in the command syntax (R87). -/
def bufText : BufSel → String
  | .din => "DIN"
  | .dout => "DOUT"

/-- A command in the syntax of R87. -/
def asmText : Instr → String
  | .nop => "NOP"
  | .derive => "DERIVE"
  | .encrypt => "ENCRYPT"
  | .decrypt => "DECRYPT"
  | .getbw src start n le =>
    (if le then "GETBW.LE " else "GETBW ") ++ bufText src ++ ", " ++ toString start ++ ", " ++ toString n
  | .clear => "CLEAR"

end Sys2Proof
end

