-- ==== Sys2Proof/Machine/Bytes.lean ====
section
/-! DEFINITION. Byte access, byte lanes and bytewise operations on quads, blocks and the salt
(20_memory.md R57; 00_scope.md R8). -/

namespace Sys2Proof

/-- Byte `m` of a quad, `m` in 0..3. -/
def Quad.byte (q : Quad) (m : Nat) : Byte :=
  match m with
  | 0 => q.b0
  | 1 => q.b1
  | 2 => q.b2
  | _ => q.b3

/-- The quad whose byte `m` is `f m`. -/
def Quad.ofFn (f : Nat → Byte) : Quad := ⟨f 0, f 1, f 2, f 3⟩

/-- Bytewise exclusive or of two quads. -/
def Quad.xor (p q : Quad) : Quad := ⟨p.b0 ^^^ q.b0, p.b1 ^^^ q.b1, p.b2 ^^^ q.b2, p.b3 ^^^ q.b3⟩

/-- The bytes of a quad in index order. -/
def Quad.toList (q : Quad) : List Byte := [q.b0, q.b1, q.b2, q.b3]

/-- The bus word of four array bytes: byte `m` in bits `8m+7 : 8m` (20_memory.md R57). -/
def Quad.toWord (q : Quad) : Word :=
  (q.b3.setWidth 32 <<< 24) ||| (q.b2.setWidth 32 <<< 16) ||| (q.b1.setWidth 32 <<< 8) ||| q.b0.setWidth 32

/-- The four array bytes of a bus word: byte `m` is byte lane `m` (20_memory.md R56, R57). -/
def Quad.ofWord (w : Word) : Quad := Quad.ofFn fun m => w.extractLsb' (8 * m) 8

/-- Quad `k` of a block, `k` in 0..3: the bytes `X[4k .. 4k+3]`. -/
def Block.quad (x : Block) (k : Nat) : Quad :=
  match k with
  | 0 => x.q0
  | 1 => x.q1
  | 2 => x.q2
  | _ => x.q3

/-- The block with quad `k` replaced, `k` in 0..3: what a host write of one word does (R56). -/
def Block.setQuad (x : Block) (k : Nat) (q : Quad) : Block :=
  match k with
  | 0 => { x with q0 := q }
  | 1 => { x with q1 := q }
  | 2 => { x with q2 := q }
  | _ => { x with q3 := q }

/-- Byte `X[i]` of a block, `i` in 0..15. -/
def Block.byte (x : Block) (i : Nat) : Byte := (x.quad (i / 4)).byte (i % 4)

/-- The block whose byte `i` is `f i`. -/
def Block.ofFn (f : Nat → Byte) : Block :=
  ⟨Quad.ofFn fun m => f m, Quad.ofFn fun m => f (4 + m), Quad.ofFn fun m => f (8 + m),
    Quad.ofFn fun m => f (12 + m)⟩

/-- Bytewise exclusive or of two blocks (43_frame_cipher.md R160). -/
def Block.xor (x y : Block) : Block :=
  ⟨x.q0.xor y.q0, x.q1.xor y.q1, x.q2.xor y.q2, x.q3.xor y.q3⟩

/-- The 16 bytes of a block in index order. -/
def Block.toList (x : Block) : List Byte :=
  x.q0.toList ++ x.q1.toList ++ x.q2.toList ++ x.q3.toList

/-- A function applied to each byte of a quad. -/
def Quad.mapBytes (f : Byte → Byte) (q : Quad) : Quad := ⟨f q.b0, f q.b1, f q.b2, f q.b3⟩

/-- A function applied to each quad (column) of a block. -/
def Block.mapQuads (f : Quad → Quad) (x : Block) : Block := ⟨f x.q0, f x.q1, f x.q2, f x.q3⟩

/-- Byte `SALT[i]`, `i` in 0..5. -/
def Salt.byte (t : Salt) (i : Nat) : Byte :=
  match i with
  | 0 => t.s0
  | 1 => t.s1
  | 2 => t.s2
  | 3 => t.s3
  | 4 => t.s4
  | _ => t.s5

/-- The bus word at offset 0x040: `SALT[0..3]` (10_state.md R34, 20_memory.md R57). -/
def Salt.lowWord (t : Salt) : Word := (Quad.mk t.s0 t.s1 t.s2 t.s3).toWord

/-- The bus word at offset 0x044: `SALT[4]` in bits 7:0, `SALT[5]` in bits 15:8, bits 31:16 zero
(10_state.md R34, 20_memory.md R57). -/
def Salt.highWord (t : Salt) : Word := (Quad.mk t.s4 t.s5 0 0).toWord

/-- A host write of `v` at offset 0x040. -/
def Salt.setLow (t : Salt) (v : Word) : Salt :=
  let q := Quad.ofWord v
  { t with s0 := q.b0, s1 := q.b1, s2 := q.b2, s3 := q.b3 }

/-- A host write of `v` at offset 0x044: bits 31:16 are ignored (10_state.md R34). -/
def Salt.setHigh (t : Salt) (v : Word) : Salt :=
  let q := Quad.ofWord v
  { t with s4 := q.b0, s5 := q.b1 }

end Sys2Proof
end

