-- ==== Sys2Proof/Machine/Aes.lean ====
section
/-! DEFINITION. AES-128, the spec's instance of the parameter BLOCK_CIPHER
(44_block_primitive.md R182 to R190). A block is the AES state column by column: `s[r][c]` is
`X[r + 4c]`, byte `r` of quad `c` (R182), so loading and unloading move nothing. -/

namespace Sys2Proof.Machine

/-- `xtime` (R183): multiplication by x modulo 0x11B. -/
def xtime (a : Byte) : Byte := (a <<< 1) ^^^ (if a.msb then 0x1B#8 else 0#8)

/-- `n` bits of the product `a * b`: repeated `xtime` of `b`, added where the bit of `a` is set. -/
def gfMulBits : Nat → Byte → Byte → Byte
  | 0, _, _ => 0#8
  | n + 1, a, b => (if a.getLsbD 0 then b else 0#8) ^^^ gfMulBits n (a >>> 1) (xtime b)

/-- The product `a * b` in GF(2^8) (R183). -/
def gfMul (a b : Byte) : Byte := gfMulBits 8 a b

/-- The S-box table of R184: one number per table row, its leftmost column the most significant byte. -/
def sboxRows : List (BitVec 128) := [
  0x637C777BF26B6FC53001672BFED7AB76, 0xCA82C97DFA5947F0ADD4A2AF9CA472C0,
  0xB7FD9326363FF7CC34A5E5F171D83115, 0x04C723C31896059A071280E2EB27B275,
  0x09832C1A1B6E5AA0523BD6B329E32F84, 0x53D100ED20FCB15B6ACBBE394A4C58CF,
  0xD0EFAAFB434D338545F9027F503C9FA8, 0x51A3408F929D38F5BCB6DA2110FFF3D2,
  0xCD0C13EC5F974417C4A77E3D645D1973, 0x60814FDC222A908846EEB814DE5E0BDB,
  0xE0323A0A4906245CC2D3AC629195E479, 0xE7C8376D8DD54EA96C56F4EA657AAE08,
  0xBA78252E1CA6B4C6E8DD741F4BBD8B8A, 0x703EB5664803F60E613557B986C11D9E,
  0xE1F8981169D98E949B1E87E9CE5528DF, 0x8CA1890DBFE6426841992D0FB054BB16]

/-- The inverse S-box table of R185, in the same form. -/
def invSboxRows : List (BitVec 128) := [
  0x52096AD53036A538BF40A39E81F3D7FB, 0x7CE339829B2FFF87348E4344C4DEE9CB,
  0x547B9432A6C2233DEE4C950B42FAC34E, 0x082EA16628D924B2765BA2496D8BD125,
  0x72F8F66486689816D4A45CCC5D65B692, 0x6C704850FDEDB9DA5E154657A78D9D84,
  0x90D8AB008CBCD30AF7E45805B8B34506, 0xD02C1E8FCA3F0F02C1AFBD0301138A6B,
  0x3A9111414F67DCEA97F2CFCEF0B4E673, 0x96AC7422E7AD3585E2F937E81C75DF6E,
  0x47F11A711D29C5896FB7620EAA18BE1B, 0xFC563E4BC6D279209ADBC0FE78CD5AF4,
  0x1FDDA8338807C731B11210592780EC5F, 0x60517FA919B54A0D2DE57A9F93C99CEF,
  0xA0E03B4DAE2AF5B0C8EBBB3C83539961, 0x172B047EBA77D626E169146355210C7D]

/-- The entry of a table for `a`: row = high nibble, column = low nibble (R184). -/
def tableEntry (rows : List (BitVec 128)) (a : Byte) : Byte :=
  ((rows.getD (a.toNat / 16) 0) >>> (8 * (15 - a.toNat % 16))).setWidth 8

/-- `S(a)` (R184). -/
def sbox (a : Byte) : Byte := tableEntry sboxRows a

/-- `InvS(a)` (R185). -/
def invSbox (a : Byte) : Byte := tableEntry invSboxRows a

/-- SubBytes (R187). -/
def subBytes (x : Block) : Block := x.mapQuads (Quad.mapBytes sbox)

/-- InvSubBytes (R187). -/
def invSubBytes (x : Block) : Block := x.mapQuads (Quad.mapBytes invSbox)

/-- ShiftRows (R187): `s'[r][c] = s[r][(c + r) mod 4]`, with `r = i mod 4` and `c = i div 4`. -/
def shiftRows (x : Block) : Block := Block.ofFn fun i => x.byte (i % 4 + 4 * ((i / 4 + i % 4) % 4))

/-- InvShiftRows (R187): `s'[r][c] = s[r][(c - r) mod 4]`. -/
def invShiftRows (x : Block) : Block :=
  Block.ofFn fun i => x.byte (i % 4 + 4 * ((i / 4 + 4 - i % 4) % 4))

/-- MixColumns of one column (R188). -/
def mixColumn (a : Quad) : Quad :=
  ⟨gfMul 2 a.b0 ^^^ gfMul 3 a.b1 ^^^ a.b2 ^^^ a.b3,
   a.b0 ^^^ gfMul 2 a.b1 ^^^ gfMul 3 a.b2 ^^^ a.b3,
   a.b0 ^^^ a.b1 ^^^ gfMul 2 a.b2 ^^^ gfMul 3 a.b3,
   gfMul 3 a.b0 ^^^ a.b1 ^^^ a.b2 ^^^ gfMul 2 a.b3⟩

/-- InvMixColumns of one column (R188). -/
def invMixColumn (a : Quad) : Quad :=
  ⟨gfMul 14 a.b0 ^^^ gfMul 11 a.b1 ^^^ gfMul 13 a.b2 ^^^ gfMul 9 a.b3,
   gfMul 9 a.b0 ^^^ gfMul 14 a.b1 ^^^ gfMul 11 a.b2 ^^^ gfMul 13 a.b3,
   gfMul 13 a.b0 ^^^ gfMul 9 a.b1 ^^^ gfMul 14 a.b2 ^^^ gfMul 11 a.b3,
   gfMul 11 a.b0 ^^^ gfMul 13 a.b1 ^^^ gfMul 9 a.b2 ^^^ gfMul 14 a.b3⟩

/-- MixColumns (R188). -/
def mixColumns (x : Block) : Block := x.mapQuads mixColumn

/-- InvMixColumns (R188). -/
def invMixColumns (x : Block) : Block := x.mapQuads invMixColumn

/-- `Rcon[1..10]` (R186). -/
def rcons : List Byte := [0x01, 0x02, 0x04, 0x08, 0x10, 0x20, 0x40, 0x80, 0x1B, 0x36]

/-- `t` of R186 for `i mod 4 = 0`: RotWord, then SubWord, then the round constant into byte 0. -/
def scheduleCore (t : Quad) (rcon : Byte) : Quad :=
  ⟨sbox t.b1 ^^^ rcon, sbox t.b2, sbox t.b3, sbox t.b0⟩

/-- The round key after `k` (R186): the four words `w[4r .. 4r+3]` from `w[4r-4 .. 4r-1]`. -/
def nextRoundKey (k : Block) (rcon : Byte) : Block :=
  let w0 := k.q0.xor (scheduleCore k.q3 rcon)
  let w1 := k.q1.xor w0
  let w2 := k.q2.xor w1
  let w3 := k.q3.xor w2
  ⟨w0, w1, w2, w3⟩

/-- The round keys from `k` on, one more for each round constant. -/
def expandFrom (k : Block) : List Byte → List Block
  | [] => [k]
  | rc :: rest => k :: expandFrom (nextRoundKey k rc) rest

/-- Key expansion (R186): round keys 0 to 10. -/
def roundKeys (K : Block) : List Block := expandFrom K rcons

/-- AddRoundKey(r) (R186). -/
def addRoundKey (keys : List Block) (r : Nat) (x : Block) : Block := x.xor (keys.getD r Block.zero)

/-- One of rounds 1 to 9 of the cipher (R189). -/
def aesRound (keys : List Block) (x : Block) (r : Nat) : Block :=
  addRoundKey keys r (mixColumns (shiftRows (subBytes x)))

/-- One of rounds 9 down to 1 of the inverse cipher (R190). -/
def aesInvRound (keys : List Block) (x : Block) (r : Nat) : Block :=
  invMixColumns (addRoundKey keys r (invSubBytes (invShiftRows x)))

/-- `E(K, X)`: the AES-128 cipher (R189). -/
def aesEncrypt (K X : Block) : Block :=
  let keys := roundKeys K
  let s := [1, 2, 3, 4, 5, 6, 7, 8, 9].foldl (aesRound keys) (addRoundKey keys 0 X)
  addRoundKey keys 10 (shiftRows (subBytes s))

/-- `D(K, Y)`: the AES-128 inverse cipher (R190). -/
def aesDecrypt (K Y : Block) : Block :=
  let keys := roundKeys K
  let s := [9, 8, 7, 6, 5, 4, 3, 2, 1].foldl (aesInvRound keys) (addRoundKey keys 10 Y)
  addRoundKey keys 0 (invSubBytes (invShiftRows s))

end Sys2Proof.Machine
end

