-- ==== Sys2Proof/Config.lean ====
section
/-! DEFINITION. The implementation parameters (00_scope.md R5) and the free values. A parameter the
spec leaves OPEN, and a value it leaves unspecified, is an opaque constant: no proof can see it. -/

namespace Sys2Proof

/-- A 128-bit block cipher: the pair `E(K, P)` and `D(K, C)` (44_block_primitive.md R180). -/
structure BlockCipher where
  E : Block → Block → Block
  D : Block → Block → Block

namespace Config

/-- `BLOCK_ID` (R5, 10_state.md R21): the value of the ID register. -/
def blockId : Word := 0x51425301#32

/-- Which 4096-byte page of the host's address space holds the window: OPEN (20_memory.md R50).
DESIGN CHOICE (log 9), safe: opaque. -/
opaque blockPage : Nat

/-- `BLOCK_BASE` (R5, R50): OPEN, a multiple of 4096. -/
def blockBase : Nat := 4096 * blockPage

/-- `MASTER_KEY_RESET` (R5, 10_state.md R32): OPEN. DESIGN CHOICE (log 3), unsafe: one value for every
run, though opaque. -/
opaque masterKeyReset : Block

/-- `MASTER_IV_RESET` (R5, 10_state.md R33): OPEN. DESIGN CHOICE (log 3), unsafe: as
`masterKeyReset`. -/
opaque masterIvReset : Block

/-- The values that host reads of engine-written registers return while a command is in flight, one
for each such read in turn (20_memory.md R61: "a model draws any value"). DESIGN CHOICE (log 4), safe:
opaque. -/
opaque unspecifiedRead : Nat → Word

/-- `DERIVE_MODULUS` (R5, 42_key_derivation.md R141): 255, not 256. -/
abbrev deriveModulus : Nat := 255

/-- `SALT_BYTES` (R5): how many bytes of a master value the salt is added to. -/
abbrev saltBytes : Nat := 6

/-- `KEY_BYTES` (R5): the size of the master and session keys, the 16 bytes of `Block`. -/
abbrev keyBytes : Nat := 16

/-- `IV_BYTES` (R5): the size of the master and session IVs, the 16 bytes of `Block`. -/
abbrev ivBytes : Nat := 16

/-- `BLOCK_BYTES` (R5): the cipher block size. -/
abbrev blockBytes : Nat := 16

/-- `BUF_BYTES` (R5): the size of each of DIN and DOUT. -/
abbrev bufBytes : Nat := 256

/-- `LEN_MAX` (R5): the largest frame length. -/
abbrev lenMax : Nat := 255

/-- `LEN_MIN_CIPHER` (R5): the smallest frame length for ENCRYPT and DECRYPT. -/
abbrev lenMinCipher : Nat := 16

/-- `BITLEN_VALID` (R5): the widths GETBW accepts. -/
abbrev bitlenValid : List Nat := [1, 2, 3, 4, 5, 6, 7, 8, 16, 32]

/-- `BLOCK_CIPHER` (R5, 44_block_primitive.md R180): AES-128 in this hardware. UNVERIFIED (log 10),
unsafe for a device with another cipher: the spec decides it, its source names none. -/
def blockCipher : BlockCipher := ⟨Machine.aesEncrypt, Machine.aesDecrypt⟩

end Config

end Sys2Proof
end

