-- ==== Sys2Proof/Machine/State.lean ====
section
/-! DEFINITION. The machine's state as plain data (10_state.md R20), its inputs and bus responses, the
reasons a step can stop, and the state after reset (10_state.md R41). -/

namespace Sys2Proof.Machine

/-- A byte buffer: (byte index, byte) pairs in one canonical form, indices strictly rising and no
zero byte listed. A byte that is not listed reads 0x00, the spec's reset contents (10_state.md R37,
R38, R41). The form is `Memory.wf`, the operations are in Machine/Ops.lean. -/
abbrev Memory := List Host.Cell

/-- The values of STATUS.ERR (60_exceptions.md R210). Codes 7 to 15 are never written, so no
constructor stands for them (log 16). -/
inductive ErrorCode where
  /-- 0: success -/
  | ok
  /-- 1: the word is illegal (30_encoding.md R84) -/
  | illegalCommand
  /-- 2: GETBW width 0 or above 32; ENCRYPT or DECRYPT with LEN below 16 -/
  | invalidArgument
  /-- 3: GETBW width 9 to 15 or 17 to 31 -/
  | unsupportedWidth
  /-- 4: GETBW field beyond the frame -/
  | outOfRange
  /-- 5: ENCRYPT or DECRYPT with KEYED = 0 -/
  | notKeyed
  /-- 6: DERIVE with KEYED = 1 -/
  | alreadyKeyed
  deriving DecidableEq, Repr

/-- What a host access does (20_memory.md R55, R56). -/
inductive BusOp where
  | read
  | write (v : Word)
  deriving DecidableEq, Repr

/-- A host access to the window: a block offset, a size in bytes (4 is the only one the block serves,
20_memory.md R54; a burst comes as its elements) and the operation. -/
structure HostAccess where
  off : Offset
  size : Nat
  op : BusOp
  deriving DecidableEq, Repr

/-- What the bus returned to the host for an access (20_memory.md R54 to R59). -/
inductive BusResponse where
  /-- no access has been made yet -/
  | none
  /-- a read completed with this word -/
  | data (w : Word)
  /-- a write completed without error -/
  | written
  /-- the access completed with a bus error -/
  | busError
  deriving DecidableEq, Repr

/-- One thing that can happen next (00_scope.md R10, 20_memory.md R66). -/
inductive Input where
  /-- a host access, by block offset (the form every rule of the spec uses, R50) -/
  | host (a : HostAccess)
  /-- a host access by host bus address `addr` (R50: the window is at BLOCK_BASE) -/
  | bus (addr : Nat) (size : Nat) (op : BusOp)
  /-- the engine takes its turn here, if a command is in flight (40_command_cycle.md R103) -/
  | engine
  /-- the reset input is asserted (70_reset_and_hazards.md R240) -/
  | assertReset
  /-- the reset input is released (R240, R241) -/
  | releaseReset
  deriving DecidableEq, Repr

/-- The state of the block (10_state.md R20) and, last, four fields of the model's own. ID is hard-wired
(`Config.blockId`), CMD reads 0 and stores nothing (R23), IRQ is computed (60_exceptions.md R216). -/
structure State where
  /-- CTRL.IE (R22) -/
  ie : Bool
  /-- STATUS.BUSY (R25) -/
  busy : Bool
  /-- STATUS.DONE (R26) -/
  done : Bool
  /-- STATUS.KEYED (R27) -/
  keyed : Bool
  /-- STATUS.COLLIDE (R28) -/
  collide : Bool
  /-- STATUS.ERR (R29) -/
  err : ErrorCode
  /-- LEN[7:0], the frame length (R30) -/
  len : BitVec 8
  /-- RESULT_LO (R31) -/
  resultLo : Word
  /-- RESULT_HI (R31) -/
  resultHi : Word
  /-- MKEY[0..15] (R32) -/
  mkey : Block
  /-- MIV[0..15] (R33) -/
  miv : Block
  /-- SALT[0..5] (R34) -/
  salt : Salt
  /-- SKEY[0..15] (R35) -/
  skey : Block
  /-- SIV[0..15] (R36) -/
  siv : Block
  /-- DIN[0..255] by byte index (R37) -/
  din : Memory
  /-- DOUT[0..255] by byte index (R38) -/
  dout : Memory
  /-- CMD_LATCH (R39) -/
  cmdLatch : Word
  /-- the level of the reset input (R240); the model's own (log 8) -/
  resetLine : Bool
  /-- inputs not yet taken, in order; the model's own (log 1) -/
  inputs : List Input
  /-- the response to the latest host access; the model's own (log 6) -/
  response : BusResponse
  /-- how many unspecified reads have been drawn (20_memory.md R61); the model's own (log 4) -/
  drawn : Nat
  deriving DecidableEq, Repr

/-- Why a step stops with a fault. The block itself has none (60_exceptions.md R214): a failed command
completes with an error code and a bus error is a response. -/
inductive Fault where
  /-- Raised by `takeInput` for an `Input.bus` whose address lies outside the 4096-byte window
  (20_memory.md R50), which this block does not answer. Safe: the machine stops (log 7). -/
  | outsideWindow
  deriving DecidableEq, Repr

/-- Why a step is refused. -/
inductive Refusal where
  /-- Raised by an arm of `exec` for an instruction without a meaning: no arm does. Safe. -/
  | notModelled (mnemonic : String)
  /-- Raised by `takeInput` for a host access while the reset input is asserted, which is outside the
  spec (70_reset_and_hazards.md R240, 93_implementation_defined.md section 2). Safe (log 8). -/
  | hostAccessDuringReset
  deriving DecidableEq, Repr

/-- The machine right after reset (10_state.md R41): idle, unkeyed, LEN = 20, MKEY and MIV at their
OPEN parameters (log 3), everything else zero; no input waiting, no access made. -/
def State.reset : State where
  ie := false
  busy := false
  done := false
  keyed := false
  collide := false
  err := .ok
  len := 20
  resultLo := 0
  resultHi := 0
  mkey := Config.masterKeyReset
  miv := Config.masterIvReset
  salt := .zero
  skey := .zero
  siv := .zero
  din := []
  dout := []
  cmdLatch := 0
  resetLine := false
  inputs := []
  response := .none
  drawn := 0

end Sys2Proof.Machine
end

