-- ==== Sys2Proof/Machine/Ops.lean ====
section
/-! DEFINITION. The named operations: byte buffers; the launch, the drop and the completion of a command
(40_command_cycle.md R101, R102, R104); the bus response; the unspecified read; reset. -/

namespace Sys2Proof.Machine

/-! ### Byte buffers -/

/-- Byte `a` of a buffer; 0x00 where none is listed (10_state.md R41). -/
def Memory.read : Memory → Nat → Byte
  | [], _ => 0#8
  | (b, v) :: rest, a => if a = b then v else Memory.read rest a

/-- An entry for `a` in front of `rest`, or none for a zero byte. -/
def Memory.entry (a : Nat) (v : Byte) (rest : Memory) : Memory := if v = 0#8 then rest else (a, v) :: rest

/-- The buffer with byte `a` set to `v`, in canonical form. -/
def Memory.write : Memory → Nat → Byte → Memory
  | [], a, v => Memory.entry a v []
  | (b, w) :: rest, a, v =>
    if a < b then Memory.entry a v ((b, w) :: rest)
    else if a = b then Memory.entry a v rest
    else (b, w) :: Memory.write rest a v

/-- The `n` bytes from index `a` on: `byte[a..a+n)` (00_scope.md R8). -/
def Memory.readBytes (m : Memory) (a : Nat) : Nat → List Byte
  | 0 => []
  | n + 1 => Memory.read m a :: Memory.readBytes m (a + 1) n

/-- The buffer with the bytes `bs` stored from index `a` on. -/
def Memory.writeBytes (m : Memory) (a : Nat) : List Byte → Memory
  | [] => m
  | b :: bs => Memory.writeBytes (Memory.write m a b) (a + 1) bs

/-- Every listed index is above `lo`, the indices rise strictly, and no listed byte is zero. -/
def Memory.risesFrom (lo : Nat) : Memory → Bool
  | [] => true
  | (b, v) :: rest => decide (lo ≤ b) && decide (v ≠ 0#8) && Memory.risesFrom (b + 1) rest

/-- The canonical form: indices strictly rising, no zero byte listed. -/
def Memory.wf (m : Memory) : Bool := Memory.risesFrom 0 m

/-- Every listed index is one of the buffer's `BUF_BYTES` (10_state.md R37, R38). -/
def Memory.inBuffer (m : Memory) : Bool := m.all fun c => decide (c.1 < Config.bufBytes)

/-- The bus word `k` of a buffer: its bytes `4k .. 4k+3` in byte lanes (20_memory.md R57). -/
def Memory.word (m : Memory) (k : Nat) : Word := (Quad.ofFn fun j => Memory.read m (4 * k + j)).toWord

/-- The buffer after a host write of `v` to its word `k` (20_memory.md R56, R57). -/
def Memory.setWord (m : Memory) (k : Nat) (v : Word) : Memory :=
  Memory.writeBytes m (4 * k) (Quad.ofWord v).toList

/-! ### The command cycle -/

/-- Launch (40_command_cycle.md R101): ERR, KEYED, COLLIDE and every other register are unchanged. -/
def State.launch (s : State) (w : Word) : State := { s with cmdLatch := w, busy := true, done := false }

/-- Drop (40_command_cycle.md R102): a host write refused because a command is in flight. -/
def State.drop (s : State) : State := { s with collide := true }

/-- Completion (40_command_cycle.md R104), the one shared operation that takes an error
(60_exceptions.md R214): a command's pseudocode ends in `.ok p`, where `p` is `s` with its pending
writes, or in `.error c` (`raise Err(c)`), whose pending writes are discarded. -/
def State.complete (s : State) (result : Except ErrorCode State) : State :=
  match result with
  | .ok p => { p with err := .ok, busy := false, done := true }
  | .error c => { s with err := c, busy := false, done := true }

/-- Acknowledgement, in the place of a return from an exception (60_exceptions.md R215): DONE <- 0. ERR
keeps its code. -/
def State.acknowledge (s : State) : State := { s with done := false }

/-! ### The bus -/

/-- The bus's response to the host's access. -/
def State.respond (s : State) (r : BusResponse) : State := { s with response := r }

/-- A host read that returns an unspecified word (20_memory.md R61): the next free value. No register of
the block changes (R55). -/
def State.respondUnspecified (s : State) : State :=
  { s with response := .data (Config.unspecifiedRead s.drawn), drawn := s.drawn + 1 }

/-! ### Reset -/

/-- The reset input is asserted (70_reset_and_hazards.md R240): every item of the state takes its R41
value and a command in flight is abandoned. What is no state of the block stays: the inputs still to
come, the latest response, the count of drawn values (log 8). -/
def State.assertReset (s : State) : State :=
  { State.reset with
    resetLine := true, inputs := s.inputs, response := s.response, drawn := s.drawn }

/-- The reset input is released: the block accepts host accesses at once (R241). -/
def State.releaseReset (s : State) : State := { s with resetLine := false }

end Sys2Proof.Machine
end

