-- ==== Sys2Proof/Machine/Flags.lean ====
section
/-! DEFINITION. The STATUS and CTRL words, the effect of a host write to each, the error codes and the
interrupt output (10_state.md R22, R24; 60_exceptions.md R210, R216). -/

namespace Sys2Proof.Machine

/-- The 4-bit code of an error (60_exceptions.md R210). -/
def ErrorCode.code : ErrorCode → BitVec 4
  | .ok => 0
  | .illegalCommand => 1
  | .invalidArgument => 2
  | .unsupportedWidth => 3
  | .outOfRange => 4
  | .notKeyed => 5
  | .alreadyKeyed => 6

/-- The STATUS word (10_state.md R24): ERR in bits 11:8, COLLIDE, KEYED, DONE, BUSY in bits 3:0, every
reserved bit 0. -/
def State.statusWord (s : State) : Word :=
  (s.err.code.setWidth 32 <<< 8) ||| ((BitVec.ofBool s.collide).setWidth 32 <<< 3)
    ||| ((BitVec.ofBool s.keyed).setWidth 32 <<< 2) ||| ((BitVec.ofBool s.done).setWidth 32 <<< 1)
    ||| (BitVec.ofBool s.busy).setWidth 32

/-- A host write of `v` to STATUS (10_state.md R24): a 1 in bit 1 clears DONE, a 1 in bit 3 clears
COLLIDE, nothing else. -/
def State.writeStatus (s : State) (v : Word) : State :=
  let t := if v.getLsbD 1 then s.acknowledge else s
  if v.getLsbD 3 then { t with collide := false } else t

/-- The CTRL word (10_state.md R22). -/
def State.ctrlWord (s : State) : Word := (BitVec.ofBool s.ie).setWidth 32

/-- A host write of `v` to CTRL (10_state.md R22, 20_memory.md R56). -/
def State.writeCtrl (s : State) (v : Word) : State := { s with ie := v.getLsbD 0 }

/-- The interrupt output (60_exceptions.md R216): `IRQ = CTRL.IE AND STATUS.DONE`. -/
def State.irq (s : State) : Bool := s.ie && s.done

end Sys2Proof.Machine
end

