-- ==== Sys2Proof/Machine/Bus.lean ====
section
/-! DEFINITION. The host's accesses to the window: address map, reads, writes, drops, bus errors
(20_memory.md R50 to R61). -/

namespace Sys2Proof.Machine

/-- What a word of the window belongs to (R53); `k` counts the words of a byte array from its first. -/
inductive Target where
  | id
  | ctrl
  | cmd
  | status
  | len
  | resultLo
  | resultHi
  | mkey (k : Nat)
  | miv (k : Nat)
  | saltLow
  | saltHigh
  | skey (k : Nat)
  | siv (k : Nat)
  | din (k : Nat)
  | dout (k : Nat)
  deriving DecidableEq, Repr

/-- A mapped row of the address map (R53): its first and last word offsets and its target by word. -/
structure MapRow where
  first : Nat
  last : Nat
  target : Nat → Target

/-- The mapped rows of R53, in the table's order; every other offset is unmapped (R58). -/
def addressMap : List MapRow := [
  ⟨0x000, 0x000, fun _ => .id⟩,
  ⟨0x004, 0x004, fun _ => .ctrl⟩,
  ⟨0x008, 0x008, fun _ => .cmd⟩,
  ⟨0x00C, 0x00C, fun _ => .status⟩,
  ⟨0x010, 0x010, fun _ => .len⟩,
  ⟨0x014, 0x014, fun _ => .resultLo⟩,
  ⟨0x018, 0x018, fun _ => .resultHi⟩,
  ⟨0x020, 0x02C, .mkey⟩,
  ⟨0x030, 0x03C, .miv⟩,
  ⟨0x040, 0x040, fun _ => .saltLow⟩,
  ⟨0x044, 0x044, fun _ => .saltHigh⟩,
  ⟨0x050, 0x05C, .skey⟩,
  ⟨0x060, 0x06C, .siv⟩,
  ⟨0x100, 0x1FC, .din⟩,
  ⟨0x200, 0x2FC, .dout⟩]

/-- What the rows map a word-aligned offset to; `none` is unmapped. -/
def mapRows (off : Nat) : List MapRow → Option Target
  | [] => none
  | row :: rest =>
    if row.first ≤ off ∧ off ≤ row.last then some (row.target ((off - row.first) / 4)) else mapRows off rest

/-- The address map (R53) at a word-aligned offset; `none` is unmapped. -/
def mapOffset (off : Nat) : Option Target := mapRows off addressMap

/-- The "host read" column of R53, reserved bits 0 (R55). -/
def State.readTarget (s : State) : Target → Word
  | .id => Config.blockId
  | .ctrl => s.ctrlWord
  | .cmd => 0#32
  | .status => s.statusWord
  | .len => s.len.setWidth 32
  | .resultLo => s.resultLo
  | .resultHi => s.resultHi
  | .mkey k => (s.mkey.quad k).toWord
  | .miv k => (s.miv.quad k).toWord
  | .saltLow => s.salt.lowWord
  | .saltHigh => s.salt.highWord
  | .skey k => (s.skey.quad k).toWord
  | .siv k => (s.siv.quad k).toWord
  | .din k => Memory.word s.din k
  | .dout k => Memory.word s.dout k

/-- The registers a completion may write, whose reads are unspecified while a command is in flight
(R61). -/
def Target.engineWritten : Target → Bool
  | .resultLo => true
  | .resultHi => true
  | .skey _ => true
  | .siv _ => true
  | .dout _ => true
  | .id => false
  | .ctrl => false
  | .cmd => false
  | .status => false
  | .len => false
  | .mkey _ => false
  | .miv _ => false
  | .saltLow => false
  | .saltHigh => false
  | .din _ => false

/-- The registers whose writes are dropped while a command is in flight (R60). -/
def Target.guarded : Target → Bool
  | .cmd => true
  | .len => true
  | .mkey _ => true
  | .miv _ => true
  | .saltLow => true
  | .saltHigh => true
  | .din _ => true
  | .id => false
  | .ctrl => false
  | .status => false
  | .resultLo => false
  | .resultHi => false
  | .skey _ => false
  | .siv _ => false
  | .dout _ => false

/-- The "host write" column of R53 for an accepted write (R56); a read-only register ignores it (R59). -/
def State.writeTarget (s : State) (v : Word) : Target → State
  | .id => s
  | .ctrl => s.writeCtrl v
  | .cmd => s.launch v
  | .status => s.writeStatus v
  | .len => { s with len := v.setWidth 8 }
  | .resultLo => s
  | .resultHi => s
  | .mkey k => { s with mkey := s.mkey.setQuad k (Quad.ofWord v) }
  | .miv k => { s with miv := s.miv.setQuad k (Quad.ofWord v) }
  | .saltLow => { s with salt := s.salt.setLow v }
  | .saltHigh => { s with salt := s.salt.setHigh v }
  | .skey _ => s
  | .siv _ => s
  | .din k => { s with din := Memory.setWord s.din k v }
  | .dout _ => s

/-- A host read of a mapped register (R55, R61). -/
def State.hostRead (s : State) (t : Target) : State :=
  if s.busy && t.engineWritten then s.respondUnspecified else s.respond (.data (s.readTarget t))

/-- A host write of `v` to a mapped register (R56, R59, R60): it always completes without error. -/
def State.hostWrite (s : State) (t : Target) (v : Word) : State :=
  (if s.busy && t.guarded then s.drop else s.writeTarget v t).respond .written

/-- The access is a 32-bit one at a multiple of 4 (R54). -/
def HostAccess.aligned (a : HostAccess) : Bool := decide (a.size = 4) && decide (a.off.toNat % 4 = 0)

/-- What an access reaches: nothing when its size or alignment is not served (R54) or its offset is
unmapped (R58). -/
def HostAccess.target (a : HostAccess) : Option Target :=
  if a.aligned then mapOffset a.off.toNat else none

/-- A host access (R54 to R61). Where it reaches nothing it completes with a bus error and changes no
state of the block. -/
def State.hostAccess (s : State) (a : HostAccess) : State :=
  match a.target with
  | none => s.respond .busError
  | some t =>
    match a.op with
    | .read => s.hostRead t
    | .write v => s.hostWrite t v

/-- The block offset of a host bus address in the window of R50; none outside it. -/
def windowOffset (addr : Nat) : Option Offset :=
  if Config.blockBase ≤ addr ∧ addr < Config.blockBase + 4096 then
    some (BitVec.ofNat 12 (addr - Config.blockBase))
  else none

end Sys2Proof.Machine
end

