-- ==== Sys2Proof/Machine/Operands.lean ====
section
/-! DEFINITION. The operands of the commands (30_encoding.md R83, 40_command_cycle.md R107): the frame
length, the input frame, the buffer a GETBW reads, the bits of a buffer, the 16-byte blocks of a frame. -/

namespace Sys2Proof.Machine

/-- `L = LEN[7:0]` (10_state.md R30). -/
abbrev State.frameLen (s : State) : Nat := s.len.toNat

/-- The input frame `DIN[0..L)` (20_memory.md R63). -/
def State.inputFrame (s : State) : List Byte := Memory.readBytes s.din 0 s.frameLen

/-- The buffer that SRC selects (30_encoding.md R83). -/
def State.buffer (s : State) : BufSel → Memory
  | .din => s.din
  | .dout => s.dout

/-- `sbit(buf, j)` (00_scope.md R6): bit `7 - (j mod 8)` of byte `j div 8`. -/
def sbit (buf : Memory) (j : Nat) : Bool := (Memory.read buf (j / 8)).getLsbD (7 - j % 8)

/-- The 16 bytes of a frame from index `o` on. -/
def blockAt (w : List Byte) (o : Nat) : Block := Block.ofFn fun i => w.getD (o + i) 0#8

/-- A frame with its 16 bytes from index `o` on replaced by a block. -/
def putBlock (w : List Byte) (o : Nat) (b : Block) : List Byte :=
  w.take o ++ b.toList ++ w.drop (o + Config.blockBytes)

end Sys2Proof.Machine
end

