-- ==== Sys2Proof/Machine/BitReader.lean ====
section
/-! DEFINITION. GETBW (41_bitreader.md). -/

namespace Sys2Proof.Machine

/-- `sum over k in 0..n-1 of f k`. -/
def sumBelow : Nat → (Nat → Nat) → Nat
  | 0, _ => 0
  | n + 1, f => sumBelow n f + f n

/-- The plain big-endian reading of `n` stream bits from `s` on (R121):
`sum over k in 0..n-1 of sbit(buf, s+k) * 2^(n-1-k)`. -/
def bitsBigEndian (buf : Memory) (s n : Nat) : Nat :=
  sumBelow n fun k => (sbit buf (s + k)).toNat * 2 ^ (n - 1 - k)

/-- `g[k]` of R121: group `k` of eight bits, counted from the field's start bit (R122). -/
def fieldGroup (buf : Memory) (s k : Nat) : Nat := bitsBigEndian buf (s + 8 * k) 8

/-- `bitword(buf, s, n, le)` (R121). -/
def bitword (buf : Memory) (s n : Nat) (le : Bool) : Nat :=
  if n ≤ 8 then bitsBigEndian buf s n
  else if le then sumBelow (n / 8) fun k => fieldGroup buf s k * 2 ^ (8 * k)
  else sumBelow (n / 8) fun k => fieldGroup buf s k * 2 ^ (8 * (n / 8 - 1 - k))

/-- GETBW's pseudocode (R120): INVALID_ARGUMENT, then UNSUPPORTED_WIDTH, then OUT_OF_RANGE, then
`RESULT <- zext(bitword)`. -/
def getbwResult (s : State) (src : BufSel) (start n : Nat) (le : Bool) : Except ErrorCode State :=
  if n = 0 ∨ 32 < n then .error .invalidArgument
  else if (9 ≤ n ∧ n ≤ 15) ∨ (17 ≤ n ∧ n ≤ 31) then .error .unsupportedWidth
  else if 8 * s.frameLen < start + n then .error .outOfRange
  else .ok { s with resultLo := BitVec.ofNat 32 (bitword (s.buffer src) start n le), resultHi := 0#32 }

/-- GETBW (R120). -/
def execGetbw (src : BufSel) (start n : Nat) (le : Bool) (s : State) : Host.Outcome State Fault Refusal :=
  .next (s.complete (getbwResult s src start n le))

end Sys2Proof.Machine
end

