-- ==== Sys2Proof/Machine/CommandCycle.lean ====
section
/-! DEFINITION. NOP (40_command_cycle.md R106). -/

namespace Sys2Proof.Machine

/-- NOP (R106): `complete(OK)` with no pending writes. -/
def execNop (s : State) : Host.Outcome State Fault Refusal := .next (s.complete (.ok s))

end Sys2Proof.Machine
end

