-- ==== Sys2Proof/Machine/FrameCipher.lean ====
section
/-! DEFINITION. ENCRYPT and DECRYPT (43_frame_cipher.md). The frame functions take the block cipher as an
argument (44_block_primitive.md R180); the commands use this hardware's `Config.blockCipher`. -/

namespace Sys2Proof.Machine

/-- `cbc1_enc(K, IV, P) = E(K, P xor IV)` (R160). -/
def cbcEnc (c : BlockCipher) (K IV P : Block) : Block := c.E K (P.xor IV)

/-- `cbc1_dec(K, IV, C) = D(K, C) xor IV` (R160). -/
def cbcDec (c : BlockCipher) (K IV C : Block) : Block := (c.D K C).xor IV

/-- The working copy with the block at `o` encrypted in place (R162). -/
def encryptAt (c : BlockCipher) (K IV : Block) (o : Nat) (w : List Byte) : List Byte :=
  putBlock w o (cbcEnc c K IV (blockAt w o))

/-- The working copy with the block at `o` decrypted in place (R164). -/
def decryptAt (c : BlockCipher) (K IV : Block) (o : Nat) (w : List Byte) : List Byte :=
  putBlock w o (cbcDec c K IV (blockAt w o))

/-- `frame_enc` (R162): the leading block, then for `L > 16` the trailing block `[L-16, L)` of what the
first step left. -/
def frameEnc (c : BlockCipher) (K IV : Block) (x : List Byte) : List Byte :=
  let w := encryptAt c K IV 0 x
  if Config.blockBytes < x.length then encryptAt c K IV (x.length - Config.blockBytes) w else w

/-- `frame_dec` (R164): for `L > 16` the trailing block first, then the leading block. -/
def frameDec (c : BlockCipher) (K IV : Block) (y : List Byte) : List Byte :=
  let w := if Config.blockBytes < y.length then decryptAt c K IV (y.length - Config.blockBytes) y else y
  decryptAt c K IV 0 w

/-- The checks and the store that ENCRYPT and DECRYPT share (R163, R165): NOT_KEYED, then
INVALID_ARGUMENT, then `DOUT[0..L) <- f SKEY SIV DIN[0..L)`. -/
def frameResult (s : State) (f : Block → Block → List Byte → List Byte) : Except ErrorCode State :=
  if !s.keyed then .error .notKeyed
  else if s.frameLen < Config.lenMinCipher then .error .invalidArgument
  else .ok { s with dout := Memory.writeBytes s.dout 0 (f s.skey s.siv s.inputFrame) }

/-- ENCRYPT (R163). -/
def execEncrypt (s : State) : Host.Outcome State Fault Refusal :=
  .next (s.complete (frameResult s (frameEnc Config.blockCipher)))

/-- DECRYPT (R165). -/
def execDecrypt (s : State) : Host.Outcome State Fault Refusal :=
  .next (s.complete (frameResult s (frameDec Config.blockCipher)))

end Sys2Proof.Machine
end

