-- ==== Sys2Proof/Machine/KeyDerivation.lean ====
section
/-! DEFINITION. DERIVE and CLEAR (42_key_derivation.md). -/

namespace Sys2Proof.Machine

/-- `derive(M, S)` (R141): the exact sum of master byte and salt byte modulo DERIVE_MODULUS in the first
SALT_BYTES bytes, the master byte in the others. -/
def deriveBlock (M : Block) (S : Salt) : Block :=
  Block.ofFn fun i =>
    if i < Config.saltBytes then BitVec.ofNat 8 (((M.byte i).toNat + (S.byte i).toNat) % Config.deriveModulus)
    else M.byte i

/-- DERIVE's pseudocode (R140). -/
def deriveResult (s : State) : Except ErrorCode State :=
  if s.keyed then .error .alreadyKeyed
  else .ok { s with skey := deriveBlock s.mkey s.salt, siv := deriveBlock s.miv s.salt, keyed := true }

/-- DERIVE (R140). -/
def execDerive (s : State) : Host.Outcome State Fault Refusal := .next (s.complete (deriveResult s))

/-- CLEAR's pseudocode (R142). -/
def clearResult (s : State) : Except ErrorCode State :=
  .ok { s with skey := .zero, siv := .zero, keyed := false }

/-- CLEAR (R142). -/
def execClear (s : State) : Host.Outcome State Fault Refusal := .next (s.complete (clearResult s))

end Sys2Proof.Machine
end

