-- ==== Sys2Proof/Machine/Turn.lean ====
section
/-! DEFINITION. One step of the whole machine: the engine's step, a host access, the reset input
(00_scope.md R10, 20_memory.md R62, R66). -/

namespace Sys2Proof.Machine

/-- The engine's dispatch (40_command_cycle.md R105): an illegal CMD_LATCH raises ILLEGAL_COMMAND, any
other runs its command; either ends in the completion R104. -/
def engineRun (s : State) : Host.Outcome State Fault Refusal :=
  match decode s.cmdLatch with
  | .ok i => exec i s
  | .error _ => .next (s.complete (.error .illegalCommand))

/-- The engine's turn (R103): it has a step exactly when STATUS.BUSY = 1. -/
def engineTurn (s : State) : Host.Outcome State Fault Refusal := if s.busy then engineRun s else .next s

/-- A host access inside the window. During reset it is outside the spec
(70_reset_and_hazards.md R240). -/
def hostTurn (a : HostAccess) (s : State) : Host.Outcome State Fault Refusal :=
  if s.resetLine then .refused .hostAccessDuringReset else .next (s.hostAccess a)

/-- One input, taken. -/
def takeInput (x : Input) (s : State) : Host.Outcome State Fault Refusal :=
  match x with
  | .host a => hostTurn a s
  | .bus addr size op =>
    match windowOffset addr with
    | some off => hostTurn ⟨off, size, op⟩ s
    | none => .fault .outsideWindow
  | .engine => engineTurn s
  | .assertReset => .next s.assertReset
  | .releaseReset => .next s.releaseReset

/-- The next input is taken; when none is waiting the engine has its turn, so a command in flight does
complete (weak fairness, R103), and an idle block stays as it is (log 2). -/
def turn (s : State) : Host.Outcome State Fault Refusal :=
  match s.inputs with
  | [] => engineTurn s
  | x :: rest => takeInput x { s with inputs := rest }

/-- The inputs that let the engine's turn come next. -/
def engineNext : List Input → List Input
  | [] => []
  | x :: rest => .engine :: x :: rest

/-- `w` launched (R101), with the engine's turn next (log 12). -/
def State.launchNext (s : State) (w : Word) : State := { s.launch w with inputs := engineNext s.inputs }

end Sys2Proof.Machine
end

