-- ==== Sys2Proof/Machine/Step.lean ====
section
/-! DEFINITION. The step function, and where the next instruction stands: the block fetches nothing
(20_memory.md R69), its one instruction slot is CMD_LATCH, filled by a launch (10_state.md R39, R40). -/

namespace Sys2Proof.Machine

/-- One step of the machine (00_scope.md R10, 20_memory.md R62). -/
def step (s : State) : Host.Outcome State Fault Refusal := turn s

/-- `s` with the instruction's word launched and the engine's turn next, so that `step` runs it
(log 12). -/
def State.withFetchWord (s : State) (nbits w : Nat) : State :=
  s.launchNext (BitVec.ofNat 32 (w % 2 ^ nbits))

end Sys2Proof.Machine
end

