-- ==== Sys2Proof/Safety.lean ====
section
/-! DEFINITION. What counts as a sound state and a disciplined host, in the terms the statements use. -/

namespace Sys2Proof.Machine

/-- The invariant of every reachable state. Both buffers are canonical and hold only their own bytes;
RESULT_HI is 0 (10_state.md R31); a command in flight has DONE = 0 (40_command_cycle.md R101, R104); with
KEYED = 0 the session key and IV are zero (42_key_derivation.md R142, 10_state.md R41); nothing is in
flight during reset (70_reset_and_hazards.md R240). -/
abbrev State.Inv (s : State) : Prop :=
  Memory.wf s.din = true ∧ Memory.inBuffer s.din = true ∧
  Memory.wf s.dout = true ∧ Memory.inBuffer s.dout = true ∧
  s.resultHi = 0#32 ∧
  (s.busy = true → s.done = false) ∧
  (s.keyed = false → s.skey = Block.zero ∧ s.siv = Block.zero) ∧
  (s.resetLine = true → s.busy = false)

/-- The state a completion with an error leaves (60_exceptions.md R214): only BUSY, DONE and ERR. -/
abbrev State.failed (s : State) (c : ErrorCode) : State := { s with err := c, busy := false, done := true }

/-- The engine has the next turn: no input waits, or the schedule gives it the turn. -/
def State.engineIsNext (s : State) : Bool :=
  match s.inputs with
  | [] => true
  | .engine :: _ => true
  | .host _ :: _ => false
  | .bus _ _ _ :: _ => false
  | .assertReset :: _ => false
  | .releaseReset :: _ => false

/-- An input the host may make while the reset input stays low: an access inside the window. -/
def Input.isHostAccess : Input → Bool
  | .host _ => true
  | .bus _ _ _ => false
  | .engine => false
  | .assertReset => false
  | .releaseReset => false

/-- The host access that the next input makes, if it is one inside the window. -/
def State.nextAccess (s : State) : Option HostAccess :=
  match s.inputs with
  | [] => none
  | .host a :: _ => some a
  | .bus addr size op :: _ => (windowOffset addr).map fun off => ⟨off, size, op⟩
  | .engine :: _ => none
  | .assertReset :: _ => none
  | .releaseReset :: _ => none

/-- The offsets whose writes the host must not make while a command is in flight
(70_reset_and_hazards.md R244): the words of CMD, LEN, MKEY, MIV, SALT and DIN. -/
abbrev operandOffset (off : Offset) : Prop :=
  off.toNat % 4 = 0 ∧ (off = 0x008#12 ∨ off = 0x010#12 ∨ (0x020 ≤ off.toNat ∧ off.toNat ≤ 0x044) ∨
    (0x100 ≤ off.toNat ∧ off.toNat ≤ 0x1FC))

/-- A 32-bit host read at a block offset: `MemRead(off, 4)` (20_memory.md R55). -/
abbrev State.readAt (s : State) (off : Offset) : State := s.hostAccess ⟨off, 4, .read⟩

/-- A 32-bit host write of `v` at a block offset: `MemWrite(off, 4, v)` (20_memory.md R56). -/
abbrev State.writeAt (s : State) (off : Offset) (v : Word) : State := s.hostAccess ⟨off, 4, .write v⟩

/-- The bytes `buf[0..n)` in index order (00_scope.md R8). -/
abbrev Memory.frame (m : Memory) (n : Nat) : List Byte := (List.range n).map (Memory.read m)

/-- The effect of a command whose engine turn a state is at: `i` is in CMD_LATCH, BUSY = 1, and the
engine comes next. -/
abbrev State.atCompletionOf (s : State) (w : Word) : Prop :=
  s.busy = true ∧ s.engineIsNext = true ∧ s.cmdLatch = w

/-- `k` steps of the machine, for statements about runs. -/
def runSteps : Nat → State → Host.Outcome State Fault Refusal
  | 0, s => .next s
  | k + 1, s =>
    match step s with
    | .next t => runSteps k t
    | .fault r => .fault r
    | .refused r => .refused r

end Sys2Proof.Machine
end

