-- ==== Sys2Proof/Certificates/Slice0/Obligations.lean ====
section
/-! DEFINITION. The statements for the provers, from the spec's numbered rules. -/

open Sys2Proof Sys2Proof.Machine

/-! ### Decoding and encoding (30_encoding.md) -/

/-- 30_encoding.md R80 to R83: decoding the word of any well-formed command gives it back, with every
operand at every value its field admits. -/
def Obligations.DecodeOfEncode : Prop :=
  ∀ i : Instr, i.wellFormed = true → decode (encode i) = .ok i

/-- 30_encoding.md R80 to R83: a word that decodes to a command is that command's encoding, so decoding
drops no bit of the word. -/
def Obligations.EncodeOfDecode : Prop :=
  ∀ (w : Word) (i : Instr), decode w = .ok i → i.wellFormed = true ∧ encode i = w

/-- 30_encoding.md R86 and spec/opcode_table.json: a word decodes to a row's command exactly when
`(word AND mask) = match`; no word matches two rows; a word that matches no row is illegal. -/
def Obligations.DecoderFollowsTheTable : Prop :=
  ∀ w : Word,
    (decode w = .ok .nop ↔ w &&& 0xFFFFFFFF#32 = 0x00000000#32) ∧
    (decode w = .ok .derive ↔ w &&& 0xFFFFFFFF#32 = 0x00000001#32) ∧
    (decode w = .ok .encrypt ↔ w &&& 0xFFFFFFFF#32 = 0x00000002#32) ∧
    (decode w = .ok .decrypt ↔ w &&& 0xFFFFFFFF#32 = 0x00000003#32) ∧
    ((∃ src start n le, decode w = .ok (.getbw src start n le)) ↔ w &&& 0x0000C0CF#32 = 0x00000004#32) ∧
    (decode w = .ok .clear ↔ w &&& 0xFFFFFFFF#32 = 0x00000005#32) ∧
    ((∃ e, decode w = .error e) ↔
      w ≠ 0x00000000#32 ∧ w ≠ 0x00000001#32 ∧ w ≠ 0x00000002#32 ∧ w ≠ 0x00000003#32 ∧
        w &&& 0x0000C0CF#32 ≠ 0x00000004#32 ∧ w ≠ 0x00000005#32)

/-- 30_encoding.md R84: the three kinds of illegal word, each refused by its own name. -/
def Obligations.IllegalWordsByClause : Prop :=
  ∀ w : Word,
    (decode w = .error .reservedOp ↔ 6 ≤ w.toNat % 16) ∧
    (decode w = .error .formatNBitsSet ↔ w.toNat % 16 ∈ [0, 1, 2, 3, 5] ∧ w.toNat / 16 ≠ 0) ∧
    (decode w = .error .formatBReservedSet ↔
      w.toNat % 16 = 4 ∧ (w.toNat / 2 ^ 6 % 4 ≠ 0 ∨ w.toNat / 2 ^ 14 % 4 ≠ 0))

/-- 30_encoding.md R87: sample words decode to the commands they stand for. -/
def Obligations.SampleWordsDecode : Prop :=
  decode 0x00000000#32 = .ok .nop ∧ decode 0x00000001#32 = .ok .derive ∧
  decode 0x00000002#32 = .ok .encrypt ∧ decode 0x00000003#32 = .ok .decrypt ∧
  decode 0x00000005#32 = .ok .clear ∧ decode 0x00080824#32 = .ok (.getbw .dout 8 8 false) ∧
  decode 0x00041014#32 = .ok (.getbw .din 4 16 true)

/-! ### The step -/

/-- 40_command_cycle.md R103, R105: when a command is in flight and the engine's turn is next, the step is
the meaning of the command that CMD_LATCH decodes to, on the inputs after that turn. -/
def Obligations.StepRunsTheDecodedCommand : Prop :=
  ∀ (s : State) (i : Instr), s.busy = true → s.engineIsNext = true → decode s.cmdLatch = .ok i →
    step s = exec i { s with inputs := s.inputs.tail }

/-- 30_encoding.md R84, 40_command_cycle.md R105: an illegal word in CMD_LATCH completes with
ILLEGAL_COMMAND and changes nothing but BUSY, DONE and ERR. -/
def Obligations.IllegalWordCompletesWithError : Prop :=
  ∀ (s : State) (e : DecodeError), s.busy = true → s.engineIsNext = true → decode s.cmdLatch = .error e →
    step s = .next { s with inputs := s.inputs.tail, err := .illegalCommand, busy := false, done := true }

/-- 40_command_cycle.md R103: the engine has a step exactly when BUSY = 1; an idle block whose engine's
turn is next keeps its state. The idle step itself is the model's choice (log 2). -/
def Obligations.IdleEngineDoesNothing : Prop :=
  ∀ s : State, s.busy = false → s.engineIsNext = true → step s = .next { s with inputs := s.inputs.tail }

/-- 20_memory.md R62: with the reset input low, a host access is one whole step. -/
def Obligations.HostAccessIsOneStep : Prop :=
  ∀ (s : State) (a : HostAccess) (rest : List Input), s.resetLine = false →
    step { s with inputs := .host a :: rest } = .next (State.hostAccess { s with inputs := rest } a)

/-- 20_memory.md R50: the window of bus addresses `BLOCK_BASE + off`, with BLOCK_BASE a multiple of 4096,
stands for the block offsets. That an address outside it stops the model is the model's choice (log 7). -/
def Obligations.BusWindowStandsForOffsets : Prop :=
  Config.blockBase % 4096 = 0 ∧
  (∀ (s : State) (off : Offset) (size : Nat) (op : BusOp) (rest : List Input),
    step { s with inputs := .bus (Config.blockBase + off.toNat) size op :: rest } =
      step { s with inputs := .host ⟨off, size, op⟩ :: rest }) ∧
  (∀ (s : State) (addr size : Nat) (op : BusOp) (rest : List Input),
    addr < Config.blockBase ∨ Config.blockBase + 4096 ≤ addr →
    step { s with inputs := .bus addr size op :: rest } = .fault .outsideWindow)

/-! ### The commands -/

/-- 40_command_cycle.md R106: NOP completes with ERR = 0, BUSY = 0, DONE = 1 and changes nothing else. -/
def Obligations.NopCompletes : Prop :=
  ∀ s : State, exec .nop s = .next { s with err := .ok, busy := false, done := true }

/-- 42_key_derivation.md R140, R141: DERIVE of an unkeyed block writes the derived session key and IV,
sets KEYED, completes without error and changes nothing else. -/
def Obligations.DeriveWritesTheSession : Prop :=
  ∀ s : State, s.keyed = false →
    ∃ K V : Block,
      exec .derive s =
        .next { s with skey := K, siv := V, keyed := true, err := .ok, busy := false, done := true } ∧
      (∀ i < 6, (K.byte i).toNat = ((s.mkey.byte i).toNat + (s.salt.byte i).toNat) % 255) ∧
      (∀ i < 6, (V.byte i).toNat = ((s.miv.byte i).toNat + (s.salt.byte i).toNat) % 255) ∧
      (∀ i, 6 ≤ i → i < 16 → K.byte i = s.mkey.byte i) ∧
      (∀ i, 6 ≤ i → i < 16 → V.byte i = s.miv.byte i)

/-- 42_key_derivation.md R140: DERIVE of a keyed block fails with ALREADY_KEYED and keeps the session. -/
def Obligations.DeriveTwiceFails : Prop :=
  ∀ s : State, s.keyed = true → exec .derive s = .next (s.failed .alreadyKeyed)

/-- 42_key_derivation.md R143: the corner cases of the modulus 255. -/
def Obligations.DerivationCorners : Prop :=
  ∀ (M : Block) (S : Salt),
    (∀ i < 6, (deriveBlock M S).byte i ≠ 0xFF#8) ∧
    (∀ i < 6, (M.byte i).toNat + (S.byte i).toNat = 255 → (deriveBlock M S).byte i = 0#8) ∧
    (∀ i < 6, (M.byte i).toNat + (S.byte i).toNat = 510 → (deriveBlock M S).byte i = 0#8) ∧
    (∀ i < 6, M.byte i = 0xFF#8 → S.byte i = 0#8 → (deriveBlock M S).byte i = 0#8) ∧
    (∀ i < 6, S.byte i = 0xFF#8 → M.byte i ≠ 0xFF#8 → (deriveBlock M S).byte i = M.byte i) ∧
    (∀ i < 6, (M.byte i).toNat + (S.byte i).toNat = 256 → (deriveBlock M S).byte i = 1#8) ∧
    (∀ i, 6 ≤ i → i < 16 → (deriveBlock M S).byte i = M.byte i)

/-- 42_key_derivation.md R142: CLEAR zeroes the session key and IV, clears KEYED, completes without error
and changes nothing else, keyed or not. -/
def Obligations.ClearEndsTheSession : Prop :=
  ∀ s : State, ∃ Z : Block,
    exec .clear s =
      .next { s with skey := Z, siv := Z, keyed := false, err := .ok, busy := false, done := true } ∧
    ∀ i < 16, Z.byte i = 0#8

/-- 43_frame_cipher.md R163, 10_state.md R38: ENCRYPT of a keyed block with LEN >= 16 stores
`frame_enc(SKEY, SIV, DIN[0..L))` in DOUT[0..L), keeps DOUT[L..255], completes without error and changes
nothing else. -/
def Obligations.EncryptWritesTheFrame : Prop :=
  ∀ s : State, s.keyed = true → 16 ≤ s.len.toNat → Memory.wf s.dout = true →
    ∃ d : Memory,
      exec .encrypt s = .next { s with dout := d, err := .ok, busy := false, done := true } ∧
      (∀ i < s.len.toNat, Memory.read d i =
        (frameEnc Config.blockCipher s.skey s.siv (Memory.frame s.din s.len.toNat)).getD i 0#8) ∧
      (∀ i, s.len.toNat ≤ i → Memory.read d i = Memory.read s.dout i)

/-- 43_frame_cipher.md R165, 10_state.md R38: DECRYPT of a keyed block with LEN >= 16 stores
`frame_dec(SKEY, SIV, DIN[0..L))` in DOUT[0..L), keeps DOUT[L..255], completes without error and changes
nothing else. -/
def Obligations.DecryptWritesTheFrame : Prop :=
  ∀ s : State, s.keyed = true → 16 ≤ s.len.toNat → Memory.wf s.dout = true →
    ∃ d : Memory,
      exec .decrypt s = .next { s with dout := d, err := .ok, busy := false, done := true } ∧
      (∀ i < s.len.toNat, Memory.read d i =
        (frameDec Config.blockCipher s.skey s.siv (Memory.frame s.din s.len.toNat)).getD i 0#8) ∧
      (∀ i, s.len.toNat ≤ i → Memory.read d i = Memory.read s.dout i)

/-- 43_frame_cipher.md R163, R165, 60_exceptions.md R212: without a session key both commands fail with
NOT_KEYED whatever the length; with one and LEN < 16, with INVALID_ARGUMENT. -/
def Obligations.CipherRefusals : Prop :=
  ∀ s : State,
    (s.keyed = false → exec .encrypt s = .next (s.failed .notKeyed) ∧
      exec .decrypt s = .next (s.failed .notKeyed)) ∧
    (s.keyed = true → s.len.toNat < 16 → exec .encrypt s = .next (s.failed .invalidArgument) ∧
      exec .decrypt s = .next (s.failed .invalidArgument))

/-- 41_bitreader.md R121 (with 00_scope.md R6 for the stream bits): GETBW of a valid width inside the
frame sets RESULT_LO to the field's value and RESULT_HI to 0, completes without error and changes nothing
else. `bit j` is `sbit(buf, j)` and `g k` is the field's byte group `k`. -/
def Obligations.GetbwExtractsTheField : Prop :=
  ∀ (s : State) (src : BufSel) (start n : Nat) (le : Bool),
    n ∈ [1, 2, 3, 4, 5, 6, 7, 8, 16, 32] → start + n ≤ 8 * s.len.toNat →
    ∃ v : Word,
      exec (.getbw src start n le) s =
        .next { s with resultLo := v, resultHi := 0#32, err := .ok, busy := false, done := true } ∧
      let buf := match src with | .din => s.din | .dout => s.dout
      let bit := fun j : Nat => ((Memory.read buf (j / 8)).getLsbD (7 - j % 8)).toNat
      let g := fun k : Nat => (Finset.range 8).sum fun t => bit (start + 8 * k + t) * 2 ^ (7 - t)
      (n ≤ 8 → v.toNat = (Finset.range n).sum fun k => bit (start + k) * 2 ^ (n - 1 - k)) ∧
      (8 < n → le = false → v.toNat = (Finset.range (n / 8)).sum fun k => g k * 2 ^ (8 * (n / 8 - 1 - k))) ∧
      (8 < n → le = true → v.toNat = (Finset.range (n / 8)).sum fun k => g k * 2 ^ (8 * k))

/-- 41_bitreader.md R120, 60_exceptions.md R212: GETBW's three failures, in the order in which they are
checked. -/
def Obligations.GetbwRefusals : Prop :=
  ∀ (s : State) (src : BufSel) (start n : Nat) (le : Bool),
    (n = 0 ∨ 32 < n → exec (.getbw src start n le) s = .next (s.failed .invalidArgument)) ∧
    ((9 ≤ n ∧ n ≤ 15) ∨ (17 ≤ n ∧ n ≤ 31) →
      exec (.getbw src start n le) s = .next (s.failed .unsupportedWidth)) ∧
    (n ∈ [1, 2, 3, 4, 5, 6, 7, 8, 16, 32] → 8 * s.len.toNat < start + n →
      exec (.getbw src start n le) s = .next (s.failed .outOfRange))

/-- 41_bitreader.md R126: after a successful GETBW, `RESULT_LO < 2^n` and `RESULT_HI = 0`. -/
def Obligations.GetbwResultIsBounded : Prop :=
  ∀ (s t : State) (src : BufSel) (start n : Nat) (le : Bool),
    exec (.getbw src start n le) s = .next t → t.err = .ok → t.resultLo.toNat < 2 ^ n ∧ t.resultHi = 0#32

/-- 41_bitreader.md R124: with `le = 0` a 16- or 32-bit field is the plain big-endian reading of its bits;
with `le = 1` it is that value with its bytes reversed. -/
def Obligations.LittleEndianReversesBytes : Prop :=
  ∀ (buf : Memory) (s : Nat),
    (∀ n, n = 16 ∨ n = 32 → bitword buf s n false =
      (Finset.range n).sum fun k => (sbit buf (s + k)).toNat * 2 ^ (n - 1 - k)) ∧
    (let v := BitVec.ofNat 16 (bitword buf s 16 false)
     bitword buf s 16 true = (((v &&& 0xFF#16) <<< 8) ||| (v >>> 8)).toNat) ∧
    (let v := BitVec.ofNat 32 (bitword buf s 32 false)
     bitword buf s 32 true =
      (v.extractLsb' 0 8 ++ v.extractLsb' 8 8 ++ v.extractLsb' 16 8 ++ v.extractLsb' 24 8).toNat)

/-- 41_bitreader.md R123: for `n <= 8` the flag `le` has no effect, on the field's value and on a GETBW. -/
def Obligations.LittleEndianIgnoredForBytes : Prop :=
  ∀ n : Nat, n ≤ 8 →
    (∀ (buf : Memory) (s : Nat), bitword buf s n false = bitword buf s n true) ∧
    ∀ (s : State) (src : BufSel) (start : Nat),
      exec (.getbw src start n true) s = exec (.getbw src start n false) s

/-- 40_command_cycle.md R104, 60_exceptions.md R214: every command completes with BUSY = 0 and DONE = 1,
and one that fails changes no register but BUSY, DONE and ERR. -/
def Obligations.FailuresArePrecise : Prop :=
  ∀ (i : Instr) (s : State), ∃ t,
    exec i s = .next t ∧ t.busy = false ∧ t.done = true ∧ (t.err ≠ .ok → t = s.failed t.err)

/-- 40_command_cycle.md R109, 10_state.md R22, R28, R30, R32, R33, R34, R37, R39: no command writes an
operand or an interface register: CTRL, COLLIDE, LEN, MKEY, MIV, SALT, DIN and CMD_LATCH keep their
values. -/
def Obligations.CommandsKeepTheirOperands : Prop :=
  ∀ (i : Instr) (s t : State), exec i s = .next t →
    t.ie = s.ie ∧ t.collide = s.collide ∧ t.len = s.len ∧ t.mkey = s.mkey ∧ t.miv = s.miv ∧
    t.salt = s.salt ∧ t.din = s.din ∧ t.cmdLatch = s.cmdLatch

/-- 60_exceptions.md R215, R217: no command's outcome depends on COLLIDE or on the error code of an
earlier command. -/
def Obligations.CommandsIgnoreCollideAndErr : Prop :=
  ∀ (i : Instr) (s t : State) (b : Bool) (c : ErrorCode), exec i s = .next t →
    exec i { s with collide := b, err := c } = .next { t with collide := b }

/-- 43_frame_cipher.md R168: the result of ENCRYPT and of DECRYPT depends only on SKEY, SIV, LEN and
DIN[0..L-1] (and on KEYED, which decides whether it runs). -/
def Obligations.CipherIsStateless : Prop :=
  ∀ (i : Instr) (s s' t t' : State), i = .encrypt ∨ i = .decrypt →
    s.keyed = s'.keyed → s.skey = s'.skey → s.siv = s'.siv → s.len = s'.len →
    (∀ j < s.len.toNat, Memory.read s.din j = Memory.read s'.din j) →
    Memory.wf s.dout = true → Memory.wf s'.dout = true →
    exec i s = .next t → exec i s' = .next t' →
    t.err = t'.err ∧
      (t.err = .ok → ∀ j < s.len.toNat, Memory.read t.dout j = Memory.read t'.dout j)

/-! ### The frame functions and the block cipher -/

/-- 43_frame_cipher.md R167: both frame functions preserve the length and, for L > 32, the bytes
[16, L-16), for every block cipher. -/
def Obligations.MiddleStaysPlaintext : Prop :=
  ∀ (c : BlockCipher) (K IV : Block) (x : List Byte), 16 ≤ x.length →
    (frameEnc c K IV x).length = x.length ∧ (frameDec c K IV x).length = x.length ∧
    ∀ j, 16 ≤ j → j + 16 < x.length →
      (frameEnc c K IV x).getD j 0#8 = x.getD j 0#8 ∧ (frameDec c K IV x).getD j 0#8 = x.getD j 0#8

/-- 43_frame_cipher.md R162, with R160's single-block CBC written out: byte by byte, an encrypted frame is
its leading block's ciphertext, then its plaintext, and, when it is longer than one block, from L - 16 on the
ciphertext, with the same IV, of what the working copy holds there after the leading block. -/
def Obligations.TrailingBlockAfterLeading : Prop :=
  ∀ (c : BlockCipher) (K IV : Block) (x : List Byte), 16 ≤ x.length →
    let lead := c.E K ((Block.ofFn fun i => x.getD i 0#8).xor IV)
    let work := fun j => if j < 16 then lead.byte j else x.getD j 0#8
    let trail := c.E K ((Block.ofFn fun i => work (x.length - 16 + i)).xor IV)
    (frameEnc c K IV x).length = x.length ∧
    ∀ j < x.length, (frameEnc c K IV x).getD j 0#8 =
      if 16 < x.length ∧ x.length - 16 ≤ j then trail.byte (j - (x.length - 16)) else work j

/-- 43_frame_cipher.md R166: the frame functions undo each other in both orders, for every key, IV and frame
of at least 16 bytes: with this hardware's cipher, and with any cipher whose E and D are mutual inverses. -/
def Obligations.FrameRoundTrip : Prop :=
  (∀ (K IV : Block) (x : List Byte), 16 ≤ x.length →
    frameDec Config.blockCipher K IV (frameEnc Config.blockCipher K IV x) = x ∧
    frameEnc Config.blockCipher K IV (frameDec Config.blockCipher K IV x) = x) ∧
  ∀ (c : BlockCipher), (∀ K X, c.D K (c.E K X) = X) → (∀ K X, c.E K (c.D K X) = X) →
    ∀ (K IV : Block) (x : List Byte), 16 ≤ x.length →
      frameDec c K IV (frameEnc c K IV x) = x ∧ frameEnc c K IV (frameDec c K IV x) = x

/-- 44_block_primitive.md R181, for this hardware's block cipher (AES-128, R180): E and D undo each other,
and E is a bijection for each key. -/
def Obligations.BlockCipherIsInvertible : Prop :=
  (∀ K X : Block, Config.blockCipher.D K (Config.blockCipher.E K X) = X) ∧
  (∀ K X : Block, Config.blockCipher.E K (Config.blockCipher.D K X) = X) ∧
  (∀ K : Block, Function.Bijective (Config.blockCipher.E K))

/-- 43_frame_cipher.md R166 on the machine: ENCRYPT, then DOUT[0..L) copied to DIN, then DECRYPT, gives
the original DIN[0..L) in DOUT. -/
def Obligations.EncryptThenDecryptRestores : Prop :=
  ∀ (s t u : State) (copy : Memory), s.keyed = true → 16 ≤ s.len.toNat → Memory.wf s.dout = true →
    exec .encrypt s = .next t →
    (∀ j < s.len.toNat, Memory.read copy j = Memory.read t.dout j) →
    exec .decrypt { t with din := copy } = .next u →
    u.err = .ok ∧ ∀ j < s.len.toNat, Memory.read u.dout j = Memory.read s.din j

/-- 44_block_primitive.md R191: the FIPS-197 Appendix C.1 example, in both directions, on this hardware's
block cipher. -/
def Obligations.ReferenceVector : Prop :=
  let K := Block.ofFn fun i => BitVec.ofNat 8 i
  let X := Block.ofFn fun i => BitVec.ofNat 8 (17 * i)
  let Y := Block.ofFn fun i =>
    ([0x69, 0xC4, 0xE0, 0xD8, 0x6A, 0x7B, 0x04, 0x30, 0xD8, 0xCD, 0xB7, 0x80, 0x70, 0xB4, 0xC5, 0x5A] :
      List Byte).getD i 0#8
  Config.blockCipher.E K X = Y ∧ Config.blockCipher.D K Y = X

/-- 44_block_primitive.md R184: each S-box entry is the affine image of the multiplicative inverse. -/
def Obligations.SboxIsTheFormula : Prop :=
  ∀ a : Byte, ∃ b : Byte, (a = 0#8 → b = 0#8) ∧ (a ≠ 0#8 → gfMul a b = 1#8) ∧
    sbox a = b ^^^ b.rotateLeft 1 ^^^ b.rotateLeft 2 ^^^ b.rotateLeft 3 ^^^ b.rotateLeft 4 ^^^ 0x63#8

/-- 44_block_primitive.md R186: the key schedule words `w[0..43]`, word `i` being quad `i mod 4` of round
key `i div 4`. -/
def Obligations.KeyScheduleWords : Prop :=
  ∀ K : Block,
    let w := fun i : Nat => ((roundKeys K).getD (i / 4) Block.zero).quad (i % 4)
    let rcon := fun r : Nat =>
      ([0, 0x01, 0x02, 0x04, 0x08, 0x10, 0x20, 0x40, 0x80, 0x1B, 0x36] : List Byte).getD r 0#8
    (∀ i < 4, w i = K.quad i) ∧
    ∀ i, 4 ≤ i → i < 44 →
      w i = (w (i - 4)).xor
        (if i % 4 = 0 then
          let t := w (i - 1)
          ⟨sbox t.b1 ^^^ rcon (i / 4), sbox t.b2, sbox t.b3, sbox t.b0⟩
        else w (i - 1))

/-! ### Host accesses -/

/-- 40_command_cycle.md R101: a write of any word to CMD while idle launches it, and changes nothing else
(the bus reports that the write completed). -/
def Obligations.LaunchTakesEveryWord : Prop :=
  ∀ (s : State) (w : Word), s.busy = false →
    s.writeAt 0x008#12 w = { s with cmdLatch := w, busy := true, done := false, response := .written }

/-- 40_command_cycle.md R102, 20_memory.md R60: while a command is in flight a write to CMD, LEN, MKEY,
MIV, SALT or DIN sets COLLIDE and changes nothing else; the access completes without error. -/
def Obligations.BusyWritesAreDropped : Prop :=
  ∀ (s : State) (off : Offset) (v : Word), s.busy = true → operandOffset off →
    s.writeAt off v = { s with collide := true, response := .written }

/-- 10_state.md R28: COLLIDE is set by a host write to CMD, LEN, MKEY, MIV, SALT or DIN that is dropped
because BUSY = 1, and by nothing else; it is cleared only by a host write of 1 to STATUS bit 3 and by reset;
no command reads it. -/
def Obligations.CollideRecordsDroppedWrites : Prop :=
  ∀ s t : State, step s = .next t →
    (∀ off v, s.nextAccess = some ⟨off, 4, .write v⟩ → s.busy = true → operandOffset off → t.collide = true) ∧
    (s.collide = false → t.collide = true →
      s.busy = true ∧ ∃ off v, s.nextAccess = some ⟨off, 4, .write v⟩ ∧ operandOffset off) ∧
    (s.collide = true → t.collide = false →
      (∃ v, s.nextAccess = some ⟨0x00C#12, 4, .write v⟩ ∧ v.getLsbD 3 = true) ∨
        s.inputs.head? = some .assertReset) ∧
    (∀ (i : Instr) (b : Bool) (u : State), exec i s = .next u →
      exec i { s with collide := b } = .next { u with collide := b })

/-- 20_memory.md R54, R58, 60_exceptions.md R213: an access of another size, at an offset that is not a
multiple of 4, or at an unmapped offset completes with a bus error and changes no state of the block,
whether or not a command is in flight. -/
def Obligations.BusErrorsChangeNothing : Prop :=
  ∀ (s : State) (a : HostAccess),
    a.size ≠ 4 ∨ a.off.toNat % 4 ≠ 0 ∨ a.off = 0x01C#12 ∨ a.off = 0x048#12 ∨ a.off = 0x04C#12 ∨
      (0x070 ≤ a.off.toNat ∧ a.off.toNat ≤ 0x0FC) ∨ 0x300 ≤ a.off.toNat →
    s.hostAccess a = { s with response := .busError }

/-- 20_memory.md R53, R55, R57: reads of the registers that no completion writes return their values in
every state, with reserved bits 0, and change no register. -/
def Obligations.OperandReadsReturnValues : Prop :=
  ∀ s : State,
    s.readAt 0x000#12 = { s with response := .data 0x51425301#32 } ∧
    s.readAt 0x004#12 = { s with response := .data (if s.ie then 1#32 else 0#32) } ∧
    s.readAt 0x008#12 = { s with response := .data 0#32 } ∧
    s.readAt 0x010#12 = { s with response := .data (BitVec.ofNat 32 s.len.toNat) } ∧
    (∀ k < 4, ∃ w : Word, s.readAt (BitVec.ofNat 12 (0x020 + 4 * k)) = { s with response := .data w } ∧
      ∀ m < 4, w.extractLsb' (8 * m) 8 = s.mkey.byte (4 * k + m)) ∧
    (∀ k < 4, ∃ w : Word, s.readAt (BitVec.ofNat 12 (0x030 + 4 * k)) = { s with response := .data w } ∧
      ∀ m < 4, w.extractLsb' (8 * m) 8 = s.miv.byte (4 * k + m)) ∧
    (∃ w : Word, s.readAt 0x040#12 = { s with response := .data w } ∧
      ∀ m < 4, w.extractLsb' (8 * m) 8 = s.salt.byte m) ∧
    (∃ w : Word, s.readAt 0x044#12 = { s with response := .data w } ∧
      w.extractLsb' 0 8 = s.salt.byte 4 ∧ w.extractLsb' 8 8 = s.salt.byte 5 ∧ w.extractLsb' 16 16 = 0#16) ∧
    (∀ k < 64, ∃ w : Word, s.readAt (BitVec.ofNat 12 (0x100 + 4 * k)) = { s with response := .data w } ∧
      ∀ m < 4, w.extractLsb' (8 * m) 8 = Memory.read s.din (4 * k + m))

/-- 20_memory.md R53, R55, R57: with no command in flight, reads of the registers that completions write
return their values and change no register. -/
def Obligations.IdleReadsReturnResults : Prop :=
  ∀ s : State, s.busy = false →
    s.readAt 0x014#12 = { s with response := .data s.resultLo } ∧
    s.readAt 0x018#12 = { s with response := .data s.resultHi } ∧
    (∀ k < 4, ∃ w : Word, s.readAt (BitVec.ofNat 12 (0x050 + 4 * k)) = { s with response := .data w } ∧
      ∀ m < 4, w.extractLsb' (8 * m) 8 = s.skey.byte (4 * k + m)) ∧
    (∀ k < 4, ∃ w : Word, s.readAt (BitVec.ofNat 12 (0x060 + 4 * k)) = { s with response := .data w } ∧
      ∀ m < 4, w.extractLsb' (8 * m) 8 = s.siv.byte (4 * k + m)) ∧
    (∀ k < 64, ∃ w : Word, s.readAt (BitVec.ofNat 12 (0x200 + 4 * k)) = { s with response := .data w } ∧
      ∀ m < 4, w.extractLsb' (8 * m) 8 = Memory.read s.dout (4 * k + m))

/-- 20_memory.md R61: while a command is in flight, a read of RESULT, SKEY, SIV or DOUT returns the next
free value and changes no register of the block. That free values are counted is the model's (log 4). -/
def Obligations.BusyReadsAreUnspecified : Prop :=
  ∀ (s : State) (off : Offset), s.busy = true → off.toNat % 4 = 0 →
    off = 0x014#12 ∨ off = 0x018#12 ∨ (0x050 ≤ off.toNat ∧ off.toNat ≤ 0x06C) ∨
      (0x200 ≤ off.toNat ∧ off.toNat ≤ 0x2FC) →
    s.readAt off = { s with response := .data (Config.unspecifiedRead s.drawn), drawn := s.drawn + 1 }

/-- 20_memory.md R56, R57, 10_state.md R30, R32, R33, R34, R37: an accepted write to LEN, MKEY, MIV, SALT
or DIN stores its byte lanes and changes nothing else. -/
def Obligations.OperandWritesLandInTheirLanes : Prop :=
  ∀ (s : State) (v : Word), s.busy = false → Memory.wf s.din = true →
    s.writeAt 0x010#12 v = { s with len := v.extractLsb' 0 8, response := .written } ∧
    (∀ k < 4, ∃ K : Block,
      s.writeAt (BitVec.ofNat 12 (0x020 + 4 * k)) v = { s with mkey := K, response := .written } ∧
      ∀ i < 16, K.byte i = if i / 4 = k then v.extractLsb' (8 * (i % 4)) 8 else s.mkey.byte i) ∧
    (∀ k < 4, ∃ V : Block,
      s.writeAt (BitVec.ofNat 12 (0x030 + 4 * k)) v = { s with miv := V, response := .written } ∧
      ∀ i < 16, V.byte i = if i / 4 = k then v.extractLsb' (8 * (i % 4)) 8 else s.miv.byte i) ∧
    (∃ S : Salt, s.writeAt 0x040#12 v = { s with salt := S, response := .written } ∧
      ∀ i < 6, S.byte i = if i < 4 then v.extractLsb' (8 * i) 8 else s.salt.byte i) ∧
    (∃ S : Salt, s.writeAt 0x044#12 v = { s with salt := S, response := .written } ∧
      ∀ i < 6, S.byte i = if i < 4 then s.salt.byte i else v.extractLsb' (8 * (i - 4)) 8) ∧
    (∀ k < 64, ∃ d : Memory,
      s.writeAt (BitVec.ofNat 12 (0x100 + 4 * k)) v = { s with din := d, response := .written } ∧
      ∀ a, Memory.read d a = if a / 4 = k then v.extractLsb' (8 * (a % 4)) 8 else Memory.read s.din a)

/-- 10_state.md R22, R24: writes to CTRL and STATUS, accepted whether or not a command is in flight: CTRL
takes bit 0; a 1 in STATUS bit 1 or 3 clears DONE or COLLIDE; nothing else changes. -/
def Obligations.ControlWritesAlwaysTake : Prop :=
  ∀ (s : State) (v : Word),
    s.writeAt 0x004#12 v = { s with ie := v.getLsbD 0, response := .written } ∧
    s.writeAt 0x00C#12 v =
      { s with done := s.done && !v.getLsbD 1, collide := s.collide && !v.getLsbD 3, response := .written }

/-- 10_state.md R24, 60_exceptions.md R210: the layout of the STATUS word and the error codes. -/
def Obligations.StatusWordLayout : Prop :=
  ∀ s : State, ∃ w : Word, s.readAt 0x00C#12 = { s with response := .data w } ∧
    w.getLsbD 0 = s.busy ∧ w.getLsbD 1 = s.done ∧ w.getLsbD 2 = s.keyed ∧ w.getLsbD 3 = s.collide ∧
    w.extractLsb' 4 4 = 0#4 ∧ w.extractLsb' 12 20 = 0#20 ∧
    (w.extractLsb' 8 4).toNat =
      match s.err with
      | .ok => 0
      | .illegalCommand => 1
      | .invalidArgument => 2
      | .unsupportedWidth => 3
      | .outOfRange => 4
      | .notKeyed => 5
      | .alreadyKeyed => 6

/-- 20_memory.md R59: a write to a read-only register changes nothing; in CTRL, STATUS, LEN and the SALT
word at 0x044 reserved bits are ignored; each completes without error; CMD reads 0. -/
def Obligations.ReadOnlyAndReservedBitsIgnoreWrites : Prop :=
  ∀ (s : State) (v : Word),
    (∀ off : Offset, off.toNat % 4 = 0 →
      off = 0x000#12 ∨ off = 0x014#12 ∨ off = 0x018#12 ∨ (0x050 ≤ off.toNat ∧ off.toNat ≤ 0x06C) ∨
        (0x200 ≤ off.toNat ∧ off.toNat ≤ 0x2FC) →
      s.writeAt off v = { s with response := .written }) ∧
    s.writeAt 0x004#12 v = s.writeAt 0x004#12 (v &&& 0x00000001#32) ∧
    s.writeAt 0x00C#12 v = s.writeAt 0x00C#12 (v &&& 0x0000000A#32) ∧
    s.writeAt 0x010#12 v = s.writeAt 0x010#12 (v &&& 0x000000FF#32) ∧
    s.writeAt 0x044#12 v = s.writeAt 0x044#12 (v &&& 0x0000FFFF#32) ∧
    (∀ off ∈ [0x004#12, 0x00C#12, 0x010#12, 0x044#12], (s.writeAt off v).response = .written) ∧
    s.readAt 0x008#12 = { s with response := .data 0#32 }

/-- 20_memory.md R56: every write but one to CMD is idempotent. -/
def Obligations.WritesAreIdempotent : Prop :=
  ∀ (s : State) (off : Offset) (v : Word), Memory.wf s.din = true → off ≠ 0x008#12 →
    (s.writeAt off v).writeAt off v = s.writeAt off v

/-- 20_memory.md R65: a word read of DIN, or of DOUT with no command in flight, is the little-endian reading
of its four bytes; GETBW's 32-bit field of the same bytes is the big-endian reading with LE = 0 and the word
itself with LE = 1. -/
def Obligations.WordsAndFieldsOfTheSameBytes : Prop :=
  ∀ (s : State) (k : Nat), k < 64 → ∃ v w : Word,
    s.readAt (BitVec.ofNat 12 (0x100 + 4 * k)) = { s with response := .data v } ∧
    (s.busy = false → s.readAt (BitVec.ofNat 12 (0x200 + 4 * k)) = { s with response := .data w }) ∧
    ∀ p ∈ [(s.din, v), (s.dout, w)],
      p.2.toNat = (Finset.range 4).sum (fun m => (Memory.read p.1 (4 * k + m)).toNat * 256 ^ m) ∧
      bitword p.1 (32 * k) 32 false =
        (Finset.range 4).sum (fun m => (Memory.read p.1 (4 * k + m)).toNat * 256 ^ (3 - m)) ∧
      bitword p.1 (32 * k) 32 true = p.2.toNat

/-- 60_exceptions.md R216: IRQ is CTRL.IE AND STATUS.DONE: after any completion it follows IE, it rises
when IE is set after a completion, and it falls when the host writes 1 to STATUS bit 1 or launches a
command. -/
def Obligations.InterruptFollowsCompletion : Prop :=
  ∀ s : State,
    s.irq = (s.ie && s.done) ∧
    (∀ (i : Instr) (t : State), exec i s = .next t → t.irq = s.ie) ∧
    (s.done = true → (s.writeAt 0x004#12 1#32).irq = true) ∧
    (s.writeAt 0x00C#12 0x00000002#32).irq = false ∧
    (∀ w : Word, s.busy = false → (s.writeAt 0x008#12 w).irq = false)

/-! ### Reset -/

/-- 10_state.md R41, 60_exceptions.md R216: what reset leaves. MKEY and MIV hold the OPEN parameters
(log 3). -/
def Obligations.ResetValues : Prop :=
  let s := State.reset
  s.busy = false ∧ s.done = false ∧ s.keyed = false ∧ s.collide = false ∧ s.err = .ok ∧ s.ie = false ∧
  s.len = 20#8 ∧ s.resultLo = 0#32 ∧ s.resultHi = 0#32 ∧ s.cmdLatch = 0#32 ∧
  (∀ i < 6, s.salt.byte i = 0#8) ∧ (∀ i < 16, s.skey.byte i = 0#8 ∧ s.siv.byte i = 0#8) ∧
  (∀ a, Memory.read s.din a = 0#8 ∧ Memory.read s.dout a = 0#8) ∧
  s.mkey = Config.masterKeyReset ∧ s.miv = Config.masterIvReset ∧ s.irq = false

/-- 70_reset_and_hazards.md R240: asserting reset in any state gives every item of the block its reset
value and abandons a command in flight. Which of the model's own fields stay is the model's (log 8). -/
def Obligations.ResetWinsAnywhere : Prop :=
  ∀ (s : State) (rest : List Input),
    step { s with inputs := .assertReset :: rest } =
      .next { State.reset with
                resetLine := true, inputs := rest, response := s.response, drawn := s.drawn }

/-- The model's choice (log 8), from 93_implementation_defined.md: a host access while reset is asserted is
refused, and after the release the block accepts accesses at once (70_reset_and_hazards.md R241). -/
def Obligations.NoHostStepsDuringReset : Prop :=
  ∀ (s : State) (a : HostAccess) (rest : List Input),
    (s.resetLine = true → step { s with inputs := .host a :: rest } = .refused .hostAccessDuringReset) ∧
    ∃ t, step { s with inputs := .releaseReset :: .host a :: rest } = .next t ∧
      step t = .next (State.hostAccess { s with resetLine := false, inputs := rest } a)

/-! ### Every step -/

/-- The reset state meets the invariant of `State.Inv` (10_state.md R41). -/
def Obligations.ResetIsSound : Prop := State.reset.Inv

/-- Every step keeps `State.Inv`: canonical buffers inside their 256 bytes, RESULT_HI = 0 (10_state.md
R31), BUSY excludes DONE, an unkeyed block holds a zero session, nothing is in flight during reset. -/
def Obligations.StepKeepsTheInvariant : Prop :=
  ∀ s t : State, s.Inv → step s = .next t → t.Inv

/-- 10_state.md R27: KEYED is set only by a successful DERIVE and cleared only by a successful CLEAR and
by reset. -/
def Obligations.KeyedChangesOnlyByDeriveClearReset : Prop :=
  ∀ s t : State, step s = .next t →
    (s.keyed = false → t.keyed = true → s.atCompletionOf 0x00000001#32 ∧ t.err = .ok) ∧
    (s.keyed = true → t.keyed = false →
      (s.atCompletionOf 0x00000005#32 ∧ t.err = .ok) ∨ s.inputs.head? = some .assertReset)

/-- 10_state.md R35, R36: the session key and IV change only by a successful DERIVE, a successful CLEAR and
reset. -/
def Obligations.SessionChangesOnlyByDeriveClearReset : Prop :=
  ∀ s t : State, step s = .next t → t.skey ≠ s.skey ∨ t.siv ≠ s.siv →
    ((s.atCompletionOf 0x00000001#32 ∨ s.atCompletionOf 0x00000005#32) ∧ t.err = .ok) ∨
      s.inputs.head? = some .assertReset

/-- 10_state.md R38, 70_reset_and_hazards.md R240: a byte of DOUT changes only by a successful ENCRYPT or
DECRYPT, below LEN, or by reset. -/
def Obligations.OutputChangesOnlyByCipherOrReset : Prop :=
  ∀ (s t : State) (a : Nat), Memory.wf s.dout = true → step s = .next t →
    Memory.read t.dout a ≠ Memory.read s.dout a →
    ((s.atCompletionOf 0x00000002#32 ∨ s.atCompletionOf 0x00000003#32) ∧ t.err = .ok ∧ a < s.len.toNat) ∨
      s.inputs.head? = some .assertReset

/-- 40_command_cycle.md R107: no step that leaves the command in flight changes the command or any of its
operands, nor any register a completion writes but DONE. -/
def Obligations.OperandsStableInFlight : Prop :=
  ∀ s t : State, step s = .next t → s.busy = true → t.busy = true →
    t.cmdLatch = s.cmdLatch ∧ t.len = s.len ∧ t.mkey = s.mkey ∧ t.miv = s.miv ∧ t.salt = s.salt ∧
    t.din = s.din ∧ t.dout = s.dout ∧ t.skey = s.skey ∧ t.siv = s.siv ∧ t.keyed = s.keyed ∧
    t.resultLo = s.resultLo ∧ t.resultHi = s.resultHi ∧ t.err = s.err

/-- 40_command_cycle.md R107 over whole runs: whatever accesses the host makes between a launch and the
engine's turn, the command's results are those of running it on its launch state. -/
def Obligations.CommandUsesItsLaunchOperands : Prop :=
  ∀ (s u : State) (i : Instr) (hs : List HostAccess) (rest : List Input),
    s.busy = true → s.resetLine = false → decode s.cmdLatch = .ok i →
    s.inputs = hs.map Input.host ++ .engine :: rest → exec i s = .next u →
    ∃ t, runSteps (hs.length + 1) s = .next t ∧
      t.busy = false ∧ t.done = true ∧ t.err = u.err ∧ t.keyed = u.keyed ∧ t.skey = u.skey ∧
      t.siv = u.siv ∧ t.dout = u.dout ∧ t.resultLo = u.resultLo ∧ t.resultHi = u.resultHi ∧
      t.len = s.len ∧ t.mkey = s.mkey ∧ t.miv = s.miv ∧ t.salt = s.salt ∧ t.din = s.din ∧ t.inputs = rest

/-- 40_command_cycle.md R103, 20_memory.md R71: a command in flight completes, unless reset intervenes,
once the host's waiting accesses are served. That an empty list of inputs gives the engine its turn is the
model's form of weak fairness (log 2). -/
def Obligations.LaunchedCommandCompletes : Prop :=
  ∀ s : State, s.busy = true → s.resetLine = false →
    (∀ x ∈ s.inputs, x.isHostAccess = true ∨ x = .engine) →
    ∃ k, k ≤ s.inputs.length + 1 ∧ ∃ t, runSteps k s = .next t ∧ t.busy = false ∧ t.done = true
end

