-- ==== Sys2Proof/Laws/Bytes.lean ====
section
/-! SUPPORT. Byte access laws of quads, blocks and the salt: reading what was built, bytes against bus
words, extensionality by bytes. -/

namespace Sys2Proof

theorem Quad.ext_bytes {p q : Quad} (h0 : p.b0 = q.b0) (h1 : p.b1 = q.b1) (h2 : p.b2 = q.b2)
    (h3 : p.b3 = q.b3) : p = q := by
  cases p; cases q; simp_all

theorem Block.ext_quads {x y : Block} (h0 : x.q0 = y.q0) (h1 : x.q1 = y.q1) (h2 : x.q2 = y.q2)
    (h3 : x.q3 = y.q3) : x = y := by
  cases x; cases y; simp_all

/-- Two blocks with the same sixteen bytes are equal. -/
theorem Block.ext_byte {x y : Block} (h : ∀ i < 16, x.byte i = y.byte i) : x = y := by
  obtain ⟨⟨_, _, _, _⟩, ⟨_, _, _, _⟩, ⟨_, _, _, _⟩, ⟨_, _, _, _⟩⟩ := x
  obtain ⟨⟨_, _, _, _⟩, ⟨_, _, _, _⟩, ⟨_, _, _, _⟩, ⟨_, _, _, _⟩⟩ := y
  simp only [Block.mk.injEq, Quad.mk.injEq]
  exact ⟨⟨h 0 (by omega), h 1 (by omega), h 2 (by omega), h 3 (by omega)⟩,
    ⟨h 4 (by omega), h 5 (by omega), h 6 (by omega), h 7 (by omega)⟩,
    ⟨h 8 (by omega), h 9 (by omega), h 10 (by omega), h 11 (by omega)⟩,
    ⟨h 12 (by omega), h 13 (by omega), h 14 (by omega), h 15 (by omega)⟩⟩

/-- Byte `i` of a block built from `f` is `f i`. -/
@[simp] theorem Block.byte_ofFn (f : Nat → Byte) (i : Nat) (h : i < 16) : (Block.ofFn f).byte i = f i := by
  interval_cases i <;> rfl

@[simp] theorem Block.ofFn_byte (x : Block) : (Block.ofFn fun i => x.byte i) = x :=
  Block.ext_byte fun i hi => by simp [hi]

@[simp] theorem Block.byte_zero (i : Nat) (h : i < 16) : Block.zero.byte i = 0#8 := by
  interval_cases i <;> rfl

theorem Block.byte_xor (x y : Block) (i : Nat) (h : i < 16) :
    (x.xor y).byte i = x.byte i ^^^ y.byte i := by
  interval_cases i <;> rfl

@[simp] theorem Quad.xor_self_right (p q : Quad) : (p.xor q).xor q = p := by
  cases p; cases q; simp [Quad.xor]

@[simp] theorem Block.xor_self_right (x y : Block) : (x.xor y).xor y = x := by
  cases x; cases y; simp [Block.xor]

theorem Block.quad_byte (x : Block) (i : Nat) : (x.quad (i / 4)).byte (i % 4) = x.byte i := rfl

theorem Block.quad_setQuad_of_lt (x : Block) (j k : Nat) (q : Quad) (hj : j < 4) (hk : k < 4) :
    (x.setQuad k q).quad j = if j = k then q else x.quad j := by
  interval_cases j <;> interval_cases k <;> simp [Block.setQuad, Block.quad]

/-- Writing quad `k` replaces its four bytes and no other. -/
theorem Block.byte_setQuad (x : Block) (k i : Nat) (q : Quad) (hk : k < 4) (hi : i < 16) :
    (x.setQuad k q).byte i = if i / 4 = k then q.byte (i % 4) else x.byte i := by
  unfold Block.byte
  rw [Block.quad_setQuad_of_lt x (i / 4) k q (by omega) hk]
  split <;> rfl

@[simp] theorem Block.quad_setQuad (x : Block) (k : Nat) (q : Quad) : (x.setQuad k q).quad k = q := by
  rcases k with _ | _ | _ | k <;> rfl

@[simp] theorem Block.length_toList (x : Block) : x.toList.length = 16 := rfl

/-- Byte `i` of a block is entry `i` of its list. -/
@[simp] theorem Block.getD_toList (x : Block) (i : Nat) (h : i < 16) : x.toList.getD i 0#8 = x.byte i := by
  interval_cases i <;> rfl

/-- A bus word holds byte `m` in bits `8m+7 : 8m` (20_memory.md R57). -/
theorem Quad.lane_toWord (q : Quad) (m : Nat) (h : m < 4) :
    q.toWord.extractLsb' (8 * m) 8 = q.byte m := by
  interval_cases m <;> (ext j hj; interval_cases j <;> simp [Quad.toWord, Quad.byte])

@[simp] theorem Quad.ofWord_toWord (q : Quad) : Quad.ofWord q.toWord = q :=
  Quad.ext_bytes (q.lane_toWord 0 (by omega)) (q.lane_toWord 1 (by omega)) (q.lane_toWord 2 (by omega))
    (q.lane_toWord 3 (by omega))

/-- Two words with the same byte lanes are equal. -/
theorem word_ext_lanes {v w : Word} (h : ∀ m < 4, v.extractLsb' (8 * m) 8 = w.extractLsb' (8 * m) 8) :
    v = w := by
  apply BitVec.eq_of_getLsbD_eq
  intro j hj
  have hb := congrArg (fun b : Byte => b.getLsbD (j % 8)) (h (j / 8) (by omega))
  have hlt : j % 8 < 8 := Nat.mod_lt _ (by omega)
  simpa [BitVec.getLsbD_extractLsb', hlt, Nat.div_add_mod] using hb

theorem Quad.byte_ofWord (w : Word) (m : Nat) (h : m < 4) :
    (Quad.ofWord w).byte m = w.extractLsb' (8 * m) 8 := by
  interval_cases m <;> rfl

@[simp] theorem Quad.toWord_ofWord (w : Word) : (Quad.ofWord w).toWord = w :=
  word_ext_lanes fun m hm => by rw [Quad.lane_toWord _ m hm, Quad.byte_ofWord w m hm]

/-- Byte `m` of quad `k` is byte `4k + m` of the block. -/
theorem Block.byte_quad (x : Block) (k m : Nat) (h : m < 4) : (x.quad k).byte m = x.byte (4 * k + m) := by
  unfold Block.byte
  rw [show (4 * k + m) / 4 = k by omega, show (4 * k + m) % 4 = m by omega]

/-- A bus word is its bytes with byte 3 on top (20_memory.md R57). -/
theorem Quad.toWord_eq_append (q : Quad) : q.toWord = q.b3 ++ q.b2 ++ q.b1 ++ q.b0 := by
  apply BitVec.eq_of_getLsbD_eq
  intro j hj
  simp only [Quad.toWord, BitVec.getLsbD_append, BitVec.getLsbD_or, BitVec.getLsbD_shiftLeft,
    BitVec.getLsbD_setWidth]
  generalize q.b0 = a
  generalize q.b1 = b
  generalize q.b2 = c
  generalize q.b3 = d
  interval_cases j <;> simp

/-- The number that four bytes spell, the first on top. -/
theorem toNat_append_bytes (x y z t : Byte) : (x ++ y ++ z ++ t : Word).toNat =
    x.toNat * 16777216 + y.toNat * 65536 + z.toNat * 256 + t.toNat := by
  have b1 := y.isLt
  have b2 := z.isLt
  have b3 := t.isLt
  rw [BitVec.toNat_append, BitVec.toNat_append, BitVec.toNat_append,
    ← Nat.shiftLeft_add_eq_or_of_lt (by omega), ← Nat.shiftLeft_add_eq_or_of_lt (by omega),
    ← Nat.shiftLeft_add_eq_or_of_lt (by omega)]
  simp only [Nat.shiftLeft_eq]
  omega

end Sys2Proof
end

