-- ==== Sys2Proof/Laws/Aes.lean ====
section
/-! SUPPORT. Laws of the AES steps (44_block_primitive.md R183 to R188): each step and its inverse, and
that multiplication by a constant is linear over exclusive or. -/

namespace Sys2Proof.Machine

/-- InvSubBytes undoes SubBytes, byte by byte (R185). -/
theorem invSbox_sbox : ∀ a : Byte, invSbox (sbox a) = a := by decide +kernel

theorem sbox_invSbox : ∀ a : Byte, sbox (invSbox a) = a := by decide +kernel

@[simp] theorem invSubBytes_subBytes (x : Block) : invSubBytes (subBytes x) = x := by
  simp [subBytes, invSubBytes, Block.mapQuads, Quad.mapBytes, invSbox_sbox]

@[simp] theorem subBytes_invSubBytes (x : Block) : subBytes (invSubBytes x) = x := by
  simp [subBytes, invSubBytes, Block.mapQuads, Quad.mapBytes, sbox_invSbox]

@[simp] theorem invShiftRows_shiftRows (x : Block) : invShiftRows (shiftRows x) = x :=
  Block.ext_byte fun i hi => by interval_cases i <;> rfl

@[simp] theorem shiftRows_invShiftRows (x : Block) : shiftRows (invShiftRows x) = x :=
  Block.ext_byte fun i hi => by interval_cases i <;> rfl

theorem xtime_xor : ∀ a b : Byte, xtime (a ^^^ b) = xtime a ^^^ xtime b := by
  intro a b
  unfold xtime
  rw [BitVec.msb_xor, BitVec.shiftLeft_xor_distrib]
  have swap : ∀ x y z : Byte, x ^^^ y ^^^ z = x ^^^ z ^^^ y := fun x y z => by ac_rfl
  cases a.msb <;> cases b.msb <;> simp [swap, ← BitVec.xor_assoc]

/-- The product is linear in its second factor. -/
theorem gfMulBits_xor (n : Nat) (c a b : Byte) :
    gfMulBits n c (a ^^^ b) = gfMulBits n c a ^^^ gfMulBits n c b := by
  induction n generalizing c a b with
  | zero => simp [gfMulBits]
  | succ n ih =>
    simp only [gfMulBits, xtime_xor, ih]
    split <;> ac_rfl

theorem gfMul_xor (c a b : Byte) : gfMul c (a ^^^ b) = gfMul c a ^^^ gfMul c b := gfMulBits_xor 8 c a b

/-- InvMixColumns after MixColumns, by entries of the product of their matrices (R187, R188). -/
theorem gfMul_const_comp : ∀ a : Byte,
    gfMul 14 (gfMul 2 a) ^^^ gfMul 11 a ^^^ gfMul 13 a ^^^ gfMul 9 (gfMul 3 a) = a ∧
    gfMul 14 (gfMul 3 a) ^^^ gfMul 11 (gfMul 2 a) ^^^ gfMul 13 a ^^^ gfMul 9 a = 0#8 ∧
    gfMul 14 a ^^^ gfMul 11 (gfMul 3 a) ^^^ gfMul 13 (gfMul 2 a) ^^^ gfMul 9 a = 0#8 ∧
    gfMul 14 a ^^^ gfMul 11 a ^^^ gfMul 13 (gfMul 3 a) ^^^ gfMul 9 (gfMul 2 a) = 0#8 := by
  decide +kernel

/-- MixColumns after InvMixColumns, by entries of the product of their matrices (R187, R188). -/
theorem gfMul_const_comp_inv : ∀ a : Byte,
    gfMul 2 (gfMul 14 a) ^^^ gfMul 3 (gfMul 9 a) ^^^ gfMul 13 a ^^^ gfMul 11 a = a ∧
    gfMul 2 (gfMul 11 a) ^^^ gfMul 3 (gfMul 14 a) ^^^ gfMul 9 a ^^^ gfMul 13 a = 0#8 ∧
    gfMul 2 (gfMul 13 a) ^^^ gfMul 3 (gfMul 11 a) ^^^ gfMul 14 a ^^^ gfMul 9 a = 0#8 ∧
    gfMul 2 (gfMul 9 a) ^^^ gfMul 3 (gfMul 13 a) ^^^ gfMul 11 a ^^^ gfMul 14 a = 0#8 := by
  decide +kernel

end Sys2Proof.Machine
end

