-- ==== Sys2Proof/Laws/BitReader.lean ====
section
/-! SUPPORT. The big-endian reading of stream bits: its bound, and reading a field in two parts
(41_bitreader.md R121). -/

namespace Sys2Proof.Machine

/-- A field of at most eight bits is read plainly. -/
theorem bitword_small (buf : Memory) (s n : Nat) (le : Bool) (h : n ≤ 8) :
    bitword buf s n le = bitsBigEndian buf s n := by
  unfold bitword
  rw [if_pos h]

/-- A longer field with `le = 0`: its first group is the most significant. -/
theorem bitword_big (buf : Memory) (s n : Nat) (h : ¬n ≤ 8) :
    bitword buf s n false =
      sumBelow (n / 8) fun k => fieldGroup buf s k * 2 ^ (8 * (n / 8 - 1 - k)) := by
  unfold bitword
  rw [if_neg h]
  simp only [Bool.false_eq_true, if_false]

/-- A longer field with `le = 1`: its first group is the least significant. -/
theorem bitword_little (buf : Memory) (s n : Nat) (h : ¬n ≤ 8) :
    bitword buf s n true = sumBelow (n / 8) fun k => fieldGroup buf s k * 2 ^ (8 * k) := by
  unfold bitword
  rw [if_neg h]
  simp only [if_true]

@[simp] theorem sumBelow_zero (f : Nat → Nat) : sumBelow 0 f = 0 := rfl

theorem sumBelow_succ (n : Nat) (f : Nat → Nat) : sumBelow (n + 1) f = sumBelow n f + f n := rfl

theorem sumBelow_eq_sum (n : Nat) (f : Nat → Nat) : sumBelow n f = (Finset.range n).sum f := by
  induction n with
  | zero => rfl
  | succ n ih => rw [sumBelow_succ, Finset.sum_range_succ, ih]

@[simp] theorem bitsBigEndian_zero (buf : Memory) (s : Nat) : bitsBigEndian buf s 0 = 0 := rfl

/-- One more bit doubles the value and adds the bit. -/
theorem bitsBigEndian_succ (buf : Memory) (s n : Nat) :
    bitsBigEndian buf s (n + 1) = 2 * bitsBigEndian buf s n + (sbit buf (s + n)).toNat := by
  unfold bitsBigEndian
  rw [sumBelow_eq_sum, sumBelow_eq_sum, Finset.sum_range_succ, Finset.mul_sum]
  congr 1
  · apply Finset.sum_congr rfl
    intro k hk
    have := Finset.mem_range.1 hk
    rw [show n + 1 - 1 - k = (n - 1 - k) + 1 by omega]
    ring
  · simp

theorem bitsBigEndian_lt (buf : Memory) (s n : Nat) : bitsBigEndian buf s n < 2 ^ n := by
  induction n with
  | zero => simp
  | succ n ih =>
    have := Bool.toNat_lt (sbit buf (s + n))
    rw [bitsBigEndian_succ, Nat.pow_succ]
    omega

/-- A field of `a + b` bits is its first `a` bits in front of its last `b`. -/
theorem bitsBigEndian_add (buf : Memory) (s a b : Nat) :
    bitsBigEndian buf s (a + b) = bitsBigEndian buf s a * 2 ^ b + bitsBigEndian buf (s + a) b := by
  induction b with
  | zero => simp
  | succ b ih =>
    rw [← Nat.add_assoc, bitsBigEndian_succ, ih, bitsBigEndian_succ, Nat.pow_succ,
      show s + (a + b) = s + a + b by omega]
    ring

end Sys2Proof.Machine
end

