-- ==== Sys2Proof/Laws/Memory.lean ====
section
/-! SUPPORT. Laws of the byte buffers: read after write, and every operation keeps the canonical form and
the buffer's bounds. -/

namespace Sys2Proof.Machine

@[simp] theorem Memory.read_nil (a : Nat) : Memory.read [] a = 0#8 := rfl

theorem Memory.read_cons (b : Nat) (v : Byte) (m : Memory) (a : Nat) :
    Memory.read ((b, v) :: m) a = if a = b then v else Memory.read m a := rfl

@[simp] theorem Memory.wf_nil : Memory.wf [] = true := rfl

@[simp] theorem Memory.inBuffer_nil : Memory.inBuffer [] = true := rfl

theorem Memory.risesFrom_cons (lo b : Nat) (v : Byte) (m : Memory) :
    Memory.risesFrom lo ((b, v) :: m) = true ↔ lo ≤ b ∧ v ≠ 0#8 ∧ Memory.risesFrom (b + 1) m = true := by
  simp [Memory.risesFrom, and_assoc]

theorem Memory.risesFrom_mono {lo lo' : Nat} {m : Memory} (h : Memory.risesFrom lo m = true)
    (hl : lo' ≤ lo) : Memory.risesFrom lo' m = true := by
  cases m with
  | nil => rfl
  | cons c m =>
    obtain ⟨b, v⟩ := c
    rw [Memory.risesFrom_cons] at h ⊢
    exact ⟨by omega, h.2⟩

/-- Below its first index a canonical buffer reads zero. -/
theorem Memory.read_below {lo : Nat} {m : Memory} (h : Memory.risesFrom lo m = true) {a : Nat}
    (ha : a < lo) : Memory.read m a = 0#8 := by
  induction m generalizing lo with
  | nil => rfl
  | cons c m ih =>
    obtain ⟨b, v⟩ := c
    rw [Memory.risesFrom_cons] at h
    rw [Memory.read_cons, if_neg (by omega)]
    exact ih h.2.2 (by omega)

theorem Memory.read_entry {a : Nat} {v : Byte} {m : Memory} (h : Memory.risesFrom (a + 1) m = true)
    (x : Nat) : Memory.read (Memory.entry a v m) x = if x = a then v else Memory.read m x := by
  unfold Memory.entry
  split
  · next hv =>
    split
    · next hx => rw [hx, hv]; exact Memory.read_below h (by omega)
    · rfl
  · rfl

theorem Memory.risesFrom_entry {lo a : Nat} {v : Byte} {m : Memory}
    (h : Memory.risesFrom (a + 1) m = true) (hl : lo ≤ a) :
    Memory.risesFrom lo (Memory.entry a v m) = true := by
  unfold Memory.entry
  split
  · exact Memory.risesFrom_mono h (by omega)
  · next hv => exact (Memory.risesFrom_cons lo a v m).2 ⟨hl, hv, h⟩

theorem Memory.write_cons (b : Nat) (w : Byte) (m : Memory) (a : Nat) (v : Byte) :
    Memory.write ((b, w) :: m) a v =
      if a < b then Memory.entry a v ((b, w) :: m)
      else if a = b then Memory.entry a v m
      else (b, w) :: Memory.write m a v := rfl

theorem Memory.risesFrom_write {lo : Nat} {m : Memory} (h : Memory.risesFrom lo m = true) {a : Nat}
    (ha : lo ≤ a) (v : Byte) : Memory.risesFrom lo (Memory.write m a v) = true := by
  induction m generalizing lo with
  | nil => exact Memory.risesFrom_entry rfl ha
  | cons c m ih =>
    obtain ⟨b, w⟩ := c
    have h' := (Memory.risesFrom_cons lo b w m).1 h
    rw [Memory.write_cons]
    split
    · next hab => exact Memory.risesFrom_entry ((Memory.risesFrom_cons _ _ _ _).2 ⟨by omega, h'.2⟩) ha
    · next hab =>
      split
      · next heq => subst heq; exact Memory.risesFrom_entry h'.2.2 ha
      · next hne => exact (Memory.risesFrom_cons _ _ _ _).2 ⟨h'.1, h'.2.1, ih h'.2.2 (by omega)⟩

theorem Memory.read_write_from {lo : Nat} {m : Memory} (h : Memory.risesFrom lo m = true) (a : Nat)
    (v : Byte) (x : Nat) : Memory.read (Memory.write m a v) x = if x = a then v else Memory.read m x := by
  induction m generalizing lo with
  | nil => exact Memory.read_entry rfl x
  | cons c m ih =>
    obtain ⟨b, w⟩ := c
    have h' := (Memory.risesFrom_cons lo b w m).1 h
    rw [Memory.write_cons]
    split
    · next hab => exact Memory.read_entry ((Memory.risesFrom_cons _ _ _ _).2 ⟨by omega, h'.2⟩) x
    · next hab =>
      split
      · next heq =>
        subst heq
        rw [Memory.read_entry h'.2.2, Memory.read_cons]
        split <;> rfl
      · next hne =>
        rw [Memory.read_cons, Memory.read_cons, ih h'.2.2]
        split_ifs <;> first | rfl | omega

/-- A write sets its byte and no other. -/
theorem Memory.read_write {m : Memory} (h : Memory.wf m = true) (a : Nat) (v : Byte) (x : Nat) :
    Memory.read (Memory.write m a v) x = if x = a then v else Memory.read m x :=
  Memory.read_write_from h a v x

/-- A write keeps the canonical form. -/
theorem Memory.wf_write {m : Memory} (h : Memory.wf m = true) (a : Nat) (v : Byte) :
    Memory.wf (Memory.write m a v) = true := Memory.risesFrom_write h (by omega) v

/-- Storing bytes keeps the canonical form. -/
theorem Memory.wf_writeBytes {m : Memory} (h : Memory.wf m = true) (a : Nat) (bs : List Byte) :
    Memory.wf (Memory.writeBytes m a bs) = true := by
  induction bs generalizing m a with
  | nil => exact h
  | cons b bs ih => exact ih (Memory.wf_write h a b) (a + 1)

/-- Storing bytes from `a` on sets those bytes and no other. -/
theorem Memory.read_writeBytes {m : Memory} (h : Memory.wf m = true) (a : Nat) (bs : List Byte) (x : Nat) :
    Memory.read (Memory.writeBytes m a bs) x =
      if a ≤ x ∧ x < a + bs.length then bs.getD (x - a) 0#8 else Memory.read m x := by
  induction bs generalizing m a with
  | nil => simp [Memory.writeBytes]
  | cons b bs ih =>
    rw [Memory.writeBytes, ih (Memory.wf_write h a b), Memory.read_write h]
    by_cases hx : x = a
    · subst hx
      rw [if_neg (by omega), if_pos rfl, if_pos (by simp)]
      simp
    · by_cases hr : a + 1 ≤ x ∧ x < a + 1 + bs.length
      · rw [if_pos hr, if_pos (by simp; omega)]
        have : x - a = (x - (a + 1)) + 1 := by omega
        rw [this, List.getD_cons_succ]
      · rw [if_neg hr, if_neg hx, if_neg (by simp; omega)]

theorem Memory.inBuffer_cons (b : Nat) (v : Byte) (m : Memory) :
    Memory.inBuffer ((b, v) :: m) = true ↔ b < Config.bufBytes ∧ Memory.inBuffer m = true := by
  simp [Memory.inBuffer]

theorem Memory.inBuffer_entry {a : Nat} {v : Byte} {m : Memory} (h : Memory.inBuffer m = true)
    (ha : a < Config.bufBytes) : Memory.inBuffer (Memory.entry a v m) = true := by
  unfold Memory.entry
  split
  · exact h
  · exact (Memory.inBuffer_cons a v m).2 ⟨ha, h⟩

/-- A write inside the buffer keeps every listed index inside it. -/
theorem Memory.inBuffer_write {m : Memory} (h : Memory.inBuffer m = true) {a : Nat}
    (ha : a < Config.bufBytes) (v : Byte) : Memory.inBuffer (Memory.write m a v) = true := by
  induction m with
  | nil => exact Memory.inBuffer_entry rfl ha
  | cons c m ih =>
    obtain ⟨b, w⟩ := c
    have h' := (Memory.inBuffer_cons b w m).1 h
    rw [Memory.write_cons]
    split
    · exact Memory.inBuffer_entry h ha
    · split
      · exact Memory.inBuffer_entry h'.2 ha
      · exact (Memory.inBuffer_cons _ _ _).2 ⟨h'.1, ih h'.2⟩

/-- Storing bytes inside the buffer keeps every listed index inside it. -/
theorem Memory.inBuffer_writeBytes {m : Memory} (h : Memory.inBuffer m = true) (a : Nat) (bs : List Byte)
    (ha : a + bs.length ≤ Config.bufBytes) : Memory.inBuffer (Memory.writeBytes m a bs) = true := by
  induction bs generalizing m a with
  | nil => exact h
  | cons b bs ih =>
    simp only [List.length_cons] at ha
    exact ih (Memory.inBuffer_write h (by omega) b) (a + 1) (by omega)

@[simp] theorem Memory.length_readBytes (m : Memory) (a n : Nat) :
    (Memory.readBytes m a n).length = n := by
  induction n generalizing a with
  | zero => rfl
  | succ n ih => simp [Memory.readBytes, ih]

/-- Byte `i` of the bytes from `a` on is byte `a + i`. -/
theorem Memory.getD_readBytes (m : Memory) (a n i : Nat) (h : i < n) :
    (Memory.readBytes m a n).getD i 0#8 = Memory.read m (a + i) := by
  induction n generalizing a i with
  | zero => omega
  | succ n ih =>
    cases i with
    | zero => rfl
    | succ i =>
      rw [Memory.readBytes, List.getD_cons_succ, ih (a + 1) i (by omega)]
      congr 1
      omega

theorem Memory.readBytes_congr {m m' : Memory} {a n : Nat}
    (h : ∀ i < n, Memory.read m (a + i) = Memory.read m' (a + i)) :
    Memory.readBytes m a n = Memory.readBytes m' a n := by
  induction n generalizing a with
  | zero => rfl
  | succ n ih =>
    rw [Memory.readBytes, Memory.readBytes]
    congr 1
    · exact h 0 (by omega)
    · apply ih
      intro i hi
      have := h (i + 1) (by omega)
      rwa [show a + (i + 1) = a + 1 + i by omega] at this

theorem Memory.ext_from {lo : Nat} {m m' : Memory} (h : Memory.risesFrom lo m = true)
    (h' : Memory.risesFrom lo m' = true) (hr : ∀ a, Memory.read m a = Memory.read m' a) : m = m' := by
  induction m generalizing lo m' with
  | nil =>
    cases m' with
    | nil => rfl
    | cons c m' =>
      have e := hr c.1
      rw [Memory.read_nil, Memory.read_cons, if_pos rfl] at e
      exact absurd e.symm ((Memory.risesFrom_cons _ _ _ _).1 h').2.1
  | cons c m ih =>
    obtain ⟨b, v⟩ := c
    have g := (Memory.risesFrom_cons _ _ _ _).1 h
    cases m' with
    | nil =>
      have e := hr b
      rw [Memory.read_nil, Memory.read_cons, if_pos rfl] at e
      exact absurd e g.2.1
    | cons c' m' =>
      obtain ⟨b', v'⟩ := c'
      have g' := (Memory.risesFrom_cons _ _ _ _).1 h'
      have e1 := hr b
      have e2 := hr b'
      simp only [Memory.read_cons, if_true] at e1 e2
      have hb : b = b' := by
        rcases Nat.lt_trichotomy b b' with hlt | he | hlt
        · rw [if_neg (by omega), Memory.read_below g'.2.2 (by omega)] at e1
          exact absurd e1 g.2.1
        · exact he
        · rw [if_neg (by omega), Memory.read_below g.2.2 (by omega)] at e2
          exact absurd e2.symm g'.2.1
      subst hb
      rw [if_pos rfl] at e1
      subst e1
      congr 1
      refine ih g.2.2 g'.2.2 fun a => ?_
      have e := hr a
      simp only [Memory.read_cons] at e
      by_cases ha : a = b
      · subst ha
        rw [Memory.read_below g.2.2 (by omega), Memory.read_below g'.2.2 (by omega)]
      · rwa [if_neg ha, if_neg ha] at e

/-- Canonical buffers that read the same are equal. -/
theorem Memory.ext_read {m m' : Memory} (h : Memory.wf m = true) (h' : Memory.wf m' = true)
    (hr : ∀ a, Memory.read m a = Memory.read m' a) : m = m' := Memory.ext_from h h' hr

/-- A bus word of a buffer holds byte `4k + m` in lane `m` (20_memory.md R57). -/
theorem Memory.lane_word (d : Memory) (k m : Nat) (h : m < 4) :
    (Memory.word d k).extractLsb' (8 * m) 8 = Memory.read d (4 * k + m) := by
  unfold Memory.word
  rw [Quad.lane_toWord _ _ h]
  interval_cases m <;> rfl

/-- A host write of a buffer's word `k` sets its four bytes and no other (20_memory.md R56, R57). -/
theorem Memory.read_setWord {d : Memory} (h : Memory.wf d = true) (k : Nat) (v : Word) (a : Nat) :
    Memory.read (Memory.setWord d k v) a =
      if a / 4 = k then v.extractLsb' (8 * (a % 4)) 8 else Memory.read d a := by
  unfold Memory.setWord
  rw [Memory.read_writeBytes h, show (Quad.ofWord v).toList.length = 4 from rfl]
  by_cases hk : a / 4 = k
  · have hlt : a % 4 < 4 := Nat.mod_lt _ (by omega)
    rw [if_pos hk, if_pos (by omega), show a - 4 * k = a % 4 by omega]
    interval_cases a % 4 <;> rfl
  · rw [if_neg hk, if_neg (by omega)]

theorem Memory.wf_setWord {d : Memory} (h : Memory.wf d = true) (k : Nat) (v : Word) :
    Memory.wf (Memory.setWord d k v) = true := Memory.wf_writeBytes h _ _

end Sys2Proof.Machine
end

