-- ==== Sys2Proof/Laws/State.lean ====
section
/-! SUPPORT. One lemma per field per named update of the state. -/

namespace Sys2Proof.Machine

variable (s : State)

@[simp] theorem State.launch_ie (w : Word) : (s.launch w).ie = s.ie := rfl
@[simp] theorem State.launch_busy (w : Word) : (s.launch w).busy = true := rfl
@[simp] theorem State.launch_done (w : Word) : (s.launch w).done = false := rfl
@[simp] theorem State.launch_keyed (w : Word) : (s.launch w).keyed = s.keyed := rfl
@[simp] theorem State.launch_collide (w : Word) : (s.launch w).collide = s.collide := rfl
@[simp] theorem State.launch_err (w : Word) : (s.launch w).err = s.err := rfl
@[simp] theorem State.launch_len (w : Word) : (s.launch w).len = s.len := rfl
@[simp] theorem State.launch_resultLo (w : Word) : (s.launch w).resultLo = s.resultLo := rfl
@[simp] theorem State.launch_resultHi (w : Word) : (s.launch w).resultHi = s.resultHi := rfl
@[simp] theorem State.launch_mkey (w : Word) : (s.launch w).mkey = s.mkey := rfl
@[simp] theorem State.launch_miv (w : Word) : (s.launch w).miv = s.miv := rfl
@[simp] theorem State.launch_salt (w : Word) : (s.launch w).salt = s.salt := rfl
@[simp] theorem State.launch_skey (w : Word) : (s.launch w).skey = s.skey := rfl
@[simp] theorem State.launch_siv (w : Word) : (s.launch w).siv = s.siv := rfl
@[simp] theorem State.launch_din (w : Word) : (s.launch w).din = s.din := rfl
@[simp] theorem State.launch_dout (w : Word) : (s.launch w).dout = s.dout := rfl
@[simp] theorem State.launch_cmdLatch (w : Word) : (s.launch w).cmdLatch = w := rfl
@[simp] theorem State.launch_resetLine (w : Word) : (s.launch w).resetLine = s.resetLine := rfl
@[simp] theorem State.launch_inputs (w : Word) : (s.launch w).inputs = s.inputs := rfl
@[simp] theorem State.launch_response (w : Word) : (s.launch w).response = s.response := rfl
@[simp] theorem State.launch_drawn (w : Word) : (s.launch w).drawn = s.drawn := rfl

@[simp] theorem State.drop_ie : s.drop.ie = s.ie := rfl
@[simp] theorem State.drop_busy : s.drop.busy = s.busy := rfl
@[simp] theorem State.drop_done : s.drop.done = s.done := rfl
@[simp] theorem State.drop_keyed : s.drop.keyed = s.keyed := rfl
@[simp] theorem State.drop_collide : s.drop.collide = true := rfl
@[simp] theorem State.drop_err : s.drop.err = s.err := rfl
@[simp] theorem State.drop_len : s.drop.len = s.len := rfl
@[simp] theorem State.drop_resultLo : s.drop.resultLo = s.resultLo := rfl
@[simp] theorem State.drop_resultHi : s.drop.resultHi = s.resultHi := rfl
@[simp] theorem State.drop_mkey : s.drop.mkey = s.mkey := rfl
@[simp] theorem State.drop_miv : s.drop.miv = s.miv := rfl
@[simp] theorem State.drop_salt : s.drop.salt = s.salt := rfl
@[simp] theorem State.drop_skey : s.drop.skey = s.skey := rfl
@[simp] theorem State.drop_siv : s.drop.siv = s.siv := rfl
@[simp] theorem State.drop_din : s.drop.din = s.din := rfl
@[simp] theorem State.drop_dout : s.drop.dout = s.dout := rfl
@[simp] theorem State.drop_cmdLatch : s.drop.cmdLatch = s.cmdLatch := rfl
@[simp] theorem State.drop_resetLine : s.drop.resetLine = s.resetLine := rfl
@[simp] theorem State.drop_inputs : s.drop.inputs = s.inputs := rfl
@[simp] theorem State.drop_response : s.drop.response = s.response := rfl
@[simp] theorem State.drop_drawn : s.drop.drawn = s.drawn := rfl

@[simp] theorem State.complete_ok_ie (p : State) : (s.complete (.ok p)).ie = p.ie := rfl
@[simp] theorem State.complete_ok_busy (p : State) : (s.complete (.ok p)).busy = false := rfl
@[simp] theorem State.complete_ok_done (p : State) : (s.complete (.ok p)).done = true := rfl
@[simp] theorem State.complete_ok_keyed (p : State) : (s.complete (.ok p)).keyed = p.keyed := rfl
@[simp] theorem State.complete_ok_collide (p : State) : (s.complete (.ok p)).collide = p.collide := rfl
@[simp] theorem State.complete_ok_err (p : State) : (s.complete (.ok p)).err = .ok := rfl
@[simp] theorem State.complete_ok_len (p : State) : (s.complete (.ok p)).len = p.len := rfl
@[simp] theorem State.complete_ok_resultLo (p : State) : (s.complete (.ok p)).resultLo = p.resultLo := rfl
@[simp] theorem State.complete_ok_resultHi (p : State) : (s.complete (.ok p)).resultHi = p.resultHi := rfl
@[simp] theorem State.complete_ok_mkey (p : State) : (s.complete (.ok p)).mkey = p.mkey := rfl
@[simp] theorem State.complete_ok_miv (p : State) : (s.complete (.ok p)).miv = p.miv := rfl
@[simp] theorem State.complete_ok_salt (p : State) : (s.complete (.ok p)).salt = p.salt := rfl
@[simp] theorem State.complete_ok_skey (p : State) : (s.complete (.ok p)).skey = p.skey := rfl
@[simp] theorem State.complete_ok_siv (p : State) : (s.complete (.ok p)).siv = p.siv := rfl
@[simp] theorem State.complete_ok_din (p : State) : (s.complete (.ok p)).din = p.din := rfl
@[simp] theorem State.complete_ok_dout (p : State) : (s.complete (.ok p)).dout = p.dout := rfl
@[simp] theorem State.complete_ok_cmdLatch (p : State) : (s.complete (.ok p)).cmdLatch = p.cmdLatch := rfl
@[simp] theorem State.complete_ok_resetLine (p : State) : (s.complete (.ok p)).resetLine = p.resetLine := rfl
@[simp] theorem State.complete_ok_inputs (p : State) : (s.complete (.ok p)).inputs = p.inputs := rfl
@[simp] theorem State.complete_ok_response (p : State) : (s.complete (.ok p)).response = p.response := rfl
@[simp] theorem State.complete_ok_drawn (p : State) : (s.complete (.ok p)).drawn = p.drawn := rfl

@[simp] theorem State.complete_error_ie (c : ErrorCode) : (s.complete (.error c)).ie = s.ie := rfl
@[simp] theorem State.complete_error_busy (c : ErrorCode) : (s.complete (.error c)).busy = false := rfl
@[simp] theorem State.complete_error_done (c : ErrorCode) : (s.complete (.error c)).done = true := rfl
@[simp] theorem State.complete_error_keyed (c : ErrorCode) : (s.complete (.error c)).keyed = s.keyed := rfl
@[simp] theorem State.complete_error_collide (c : ErrorCode) : (s.complete (.error c)).collide = s.collide := rfl
@[simp] theorem State.complete_error_err (c : ErrorCode) : (s.complete (.error c)).err = c := rfl
@[simp] theorem State.complete_error_len (c : ErrorCode) : (s.complete (.error c)).len = s.len := rfl
@[simp] theorem State.complete_error_resultLo (c : ErrorCode) : (s.complete (.error c)).resultLo = s.resultLo := rfl
@[simp] theorem State.complete_error_resultHi (c : ErrorCode) : (s.complete (.error c)).resultHi = s.resultHi := rfl
@[simp] theorem State.complete_error_mkey (c : ErrorCode) : (s.complete (.error c)).mkey = s.mkey := rfl
@[simp] theorem State.complete_error_miv (c : ErrorCode) : (s.complete (.error c)).miv = s.miv := rfl
@[simp] theorem State.complete_error_salt (c : ErrorCode) : (s.complete (.error c)).salt = s.salt := rfl
@[simp] theorem State.complete_error_skey (c : ErrorCode) : (s.complete (.error c)).skey = s.skey := rfl
@[simp] theorem State.complete_error_siv (c : ErrorCode) : (s.complete (.error c)).siv = s.siv := rfl
@[simp] theorem State.complete_error_din (c : ErrorCode) : (s.complete (.error c)).din = s.din := rfl
@[simp] theorem State.complete_error_dout (c : ErrorCode) : (s.complete (.error c)).dout = s.dout := rfl
@[simp] theorem State.complete_error_cmdLatch (c : ErrorCode) : (s.complete (.error c)).cmdLatch = s.cmdLatch := rfl
@[simp] theorem State.complete_error_resetLine (c : ErrorCode) : (s.complete (.error c)).resetLine = s.resetLine := rfl
@[simp] theorem State.complete_error_inputs (c : ErrorCode) : (s.complete (.error c)).inputs = s.inputs := rfl
@[simp] theorem State.complete_error_response (c : ErrorCode) : (s.complete (.error c)).response = s.response := rfl
@[simp] theorem State.complete_error_drawn (c : ErrorCode) : (s.complete (.error c)).drawn = s.drawn := rfl

@[simp] theorem State.acknowledge_ie : s.acknowledge.ie = s.ie := rfl
@[simp] theorem State.acknowledge_busy : s.acknowledge.busy = s.busy := rfl
@[simp] theorem State.acknowledge_done : s.acknowledge.done = false := rfl
@[simp] theorem State.acknowledge_keyed : s.acknowledge.keyed = s.keyed := rfl
@[simp] theorem State.acknowledge_collide : s.acknowledge.collide = s.collide := rfl
@[simp] theorem State.acknowledge_err : s.acknowledge.err = s.err := rfl
@[simp] theorem State.acknowledge_len : s.acknowledge.len = s.len := rfl
@[simp] theorem State.acknowledge_resultLo : s.acknowledge.resultLo = s.resultLo := rfl
@[simp] theorem State.acknowledge_resultHi : s.acknowledge.resultHi = s.resultHi := rfl
@[simp] theorem State.acknowledge_mkey : s.acknowledge.mkey = s.mkey := rfl
@[simp] theorem State.acknowledge_miv : s.acknowledge.miv = s.miv := rfl
@[simp] theorem State.acknowledge_salt : s.acknowledge.salt = s.salt := rfl
@[simp] theorem State.acknowledge_skey : s.acknowledge.skey = s.skey := rfl
@[simp] theorem State.acknowledge_siv : s.acknowledge.siv = s.siv := rfl
@[simp] theorem State.acknowledge_din : s.acknowledge.din = s.din := rfl
@[simp] theorem State.acknowledge_dout : s.acknowledge.dout = s.dout := rfl
@[simp] theorem State.acknowledge_cmdLatch : s.acknowledge.cmdLatch = s.cmdLatch := rfl
@[simp] theorem State.acknowledge_resetLine : s.acknowledge.resetLine = s.resetLine := rfl
@[simp] theorem State.acknowledge_inputs : s.acknowledge.inputs = s.inputs := rfl
@[simp] theorem State.acknowledge_response : s.acknowledge.response = s.response := rfl
@[simp] theorem State.acknowledge_drawn : s.acknowledge.drawn = s.drawn := rfl

@[simp] theorem State.writeCtrl_ie (v : Word) : (s.writeCtrl v).ie = v.getLsbD 0 := rfl
@[simp] theorem State.writeCtrl_busy (v : Word) : (s.writeCtrl v).busy = s.busy := rfl
@[simp] theorem State.writeCtrl_done (v : Word) : (s.writeCtrl v).done = s.done := rfl
@[simp] theorem State.writeCtrl_keyed (v : Word) : (s.writeCtrl v).keyed = s.keyed := rfl
@[simp] theorem State.writeCtrl_collide (v : Word) : (s.writeCtrl v).collide = s.collide := rfl
@[simp] theorem State.writeCtrl_err (v : Word) : (s.writeCtrl v).err = s.err := rfl
@[simp] theorem State.writeCtrl_len (v : Word) : (s.writeCtrl v).len = s.len := rfl
@[simp] theorem State.writeCtrl_resultLo (v : Word) : (s.writeCtrl v).resultLo = s.resultLo := rfl
@[simp] theorem State.writeCtrl_resultHi (v : Word) : (s.writeCtrl v).resultHi = s.resultHi := rfl
@[simp] theorem State.writeCtrl_mkey (v : Word) : (s.writeCtrl v).mkey = s.mkey := rfl
@[simp] theorem State.writeCtrl_miv (v : Word) : (s.writeCtrl v).miv = s.miv := rfl
@[simp] theorem State.writeCtrl_salt (v : Word) : (s.writeCtrl v).salt = s.salt := rfl
@[simp] theorem State.writeCtrl_skey (v : Word) : (s.writeCtrl v).skey = s.skey := rfl
@[simp] theorem State.writeCtrl_siv (v : Word) : (s.writeCtrl v).siv = s.siv := rfl
@[simp] theorem State.writeCtrl_din (v : Word) : (s.writeCtrl v).din = s.din := rfl
@[simp] theorem State.writeCtrl_dout (v : Word) : (s.writeCtrl v).dout = s.dout := rfl
@[simp] theorem State.writeCtrl_cmdLatch (v : Word) : (s.writeCtrl v).cmdLatch = s.cmdLatch := rfl
@[simp] theorem State.writeCtrl_resetLine (v : Word) : (s.writeCtrl v).resetLine = s.resetLine := rfl
@[simp] theorem State.writeCtrl_inputs (v : Word) : (s.writeCtrl v).inputs = s.inputs := rfl
@[simp] theorem State.writeCtrl_response (v : Word) : (s.writeCtrl v).response = s.response := rfl
@[simp] theorem State.writeCtrl_drawn (v : Word) : (s.writeCtrl v).drawn = s.drawn := rfl

@[simp] theorem State.respond_ie (r : BusResponse) : (s.respond r).ie = s.ie := rfl
@[simp] theorem State.respond_busy (r : BusResponse) : (s.respond r).busy = s.busy := rfl
@[simp] theorem State.respond_done (r : BusResponse) : (s.respond r).done = s.done := rfl
@[simp] theorem State.respond_keyed (r : BusResponse) : (s.respond r).keyed = s.keyed := rfl
@[simp] theorem State.respond_collide (r : BusResponse) : (s.respond r).collide = s.collide := rfl
@[simp] theorem State.respond_err (r : BusResponse) : (s.respond r).err = s.err := rfl
@[simp] theorem State.respond_len (r : BusResponse) : (s.respond r).len = s.len := rfl
@[simp] theorem State.respond_resultLo (r : BusResponse) : (s.respond r).resultLo = s.resultLo := rfl
@[simp] theorem State.respond_resultHi (r : BusResponse) : (s.respond r).resultHi = s.resultHi := rfl
@[simp] theorem State.respond_mkey (r : BusResponse) : (s.respond r).mkey = s.mkey := rfl
@[simp] theorem State.respond_miv (r : BusResponse) : (s.respond r).miv = s.miv := rfl
@[simp] theorem State.respond_salt (r : BusResponse) : (s.respond r).salt = s.salt := rfl
@[simp] theorem State.respond_skey (r : BusResponse) : (s.respond r).skey = s.skey := rfl
@[simp] theorem State.respond_siv (r : BusResponse) : (s.respond r).siv = s.siv := rfl
@[simp] theorem State.respond_din (r : BusResponse) : (s.respond r).din = s.din := rfl
@[simp] theorem State.respond_dout (r : BusResponse) : (s.respond r).dout = s.dout := rfl
@[simp] theorem State.respond_cmdLatch (r : BusResponse) : (s.respond r).cmdLatch = s.cmdLatch := rfl
@[simp] theorem State.respond_resetLine (r : BusResponse) : (s.respond r).resetLine = s.resetLine := rfl
@[simp] theorem State.respond_inputs (r : BusResponse) : (s.respond r).inputs = s.inputs := rfl
@[simp] theorem State.respond_response (r : BusResponse) : (s.respond r).response = r := rfl
@[simp] theorem State.respond_drawn (r : BusResponse) : (s.respond r).drawn = s.drawn := rfl

@[simp] theorem State.respondUnspecified_ie : s.respondUnspecified.ie = s.ie := rfl
@[simp] theorem State.respondUnspecified_busy : s.respondUnspecified.busy = s.busy := rfl
@[simp] theorem State.respondUnspecified_done : s.respondUnspecified.done = s.done := rfl
@[simp] theorem State.respondUnspecified_keyed : s.respondUnspecified.keyed = s.keyed := rfl
@[simp] theorem State.respondUnspecified_collide : s.respondUnspecified.collide = s.collide := rfl
@[simp] theorem State.respondUnspecified_err : s.respondUnspecified.err = s.err := rfl
@[simp] theorem State.respondUnspecified_len : s.respondUnspecified.len = s.len := rfl
@[simp] theorem State.respondUnspecified_resultLo : s.respondUnspecified.resultLo = s.resultLo := rfl
@[simp] theorem State.respondUnspecified_resultHi : s.respondUnspecified.resultHi = s.resultHi := rfl
@[simp] theorem State.respondUnspecified_mkey : s.respondUnspecified.mkey = s.mkey := rfl
@[simp] theorem State.respondUnspecified_miv : s.respondUnspecified.miv = s.miv := rfl
@[simp] theorem State.respondUnspecified_salt : s.respondUnspecified.salt = s.salt := rfl
@[simp] theorem State.respondUnspecified_skey : s.respondUnspecified.skey = s.skey := rfl
@[simp] theorem State.respondUnspecified_siv : s.respondUnspecified.siv = s.siv := rfl
@[simp] theorem State.respondUnspecified_din : s.respondUnspecified.din = s.din := rfl
@[simp] theorem State.respondUnspecified_dout : s.respondUnspecified.dout = s.dout := rfl
@[simp] theorem State.respondUnspecified_cmdLatch : s.respondUnspecified.cmdLatch = s.cmdLatch := rfl
@[simp] theorem State.respondUnspecified_resetLine : s.respondUnspecified.resetLine = s.resetLine := rfl
@[simp] theorem State.respondUnspecified_inputs : s.respondUnspecified.inputs = s.inputs := rfl
@[simp] theorem State.respondUnspecified_response : s.respondUnspecified.response = .data (Config.unspecifiedRead s.drawn) := rfl
@[simp] theorem State.respondUnspecified_drawn : s.respondUnspecified.drawn = s.drawn + 1 := rfl

@[simp] theorem State.assertReset_ie : s.assertReset.ie = false := rfl
@[simp] theorem State.assertReset_busy : s.assertReset.busy = false := rfl
@[simp] theorem State.assertReset_done : s.assertReset.done = false := rfl
@[simp] theorem State.assertReset_keyed : s.assertReset.keyed = false := rfl
@[simp] theorem State.assertReset_collide : s.assertReset.collide = false := rfl
@[simp] theorem State.assertReset_err : s.assertReset.err = .ok := rfl
@[simp] theorem State.assertReset_len : s.assertReset.len = 20 := rfl
@[simp] theorem State.assertReset_resultLo : s.assertReset.resultLo = 0 := rfl
@[simp] theorem State.assertReset_resultHi : s.assertReset.resultHi = 0 := rfl
@[simp] theorem State.assertReset_mkey : s.assertReset.mkey = Config.masterKeyReset := rfl
@[simp] theorem State.assertReset_miv : s.assertReset.miv = Config.masterIvReset := rfl
@[simp] theorem State.assertReset_salt : s.assertReset.salt = Salt.zero := rfl
@[simp] theorem State.assertReset_skey : s.assertReset.skey = Block.zero := rfl
@[simp] theorem State.assertReset_siv : s.assertReset.siv = Block.zero := rfl
@[simp] theorem State.assertReset_din : s.assertReset.din = [] := rfl
@[simp] theorem State.assertReset_dout : s.assertReset.dout = [] := rfl
@[simp] theorem State.assertReset_cmdLatch : s.assertReset.cmdLatch = 0 := rfl
@[simp] theorem State.assertReset_resetLine : s.assertReset.resetLine = true := rfl
@[simp] theorem State.assertReset_inputs : s.assertReset.inputs = s.inputs := rfl
@[simp] theorem State.assertReset_response : s.assertReset.response = s.response := rfl
@[simp] theorem State.assertReset_drawn : s.assertReset.drawn = s.drawn := rfl

@[simp] theorem State.releaseReset_ie : s.releaseReset.ie = s.ie := rfl
@[simp] theorem State.releaseReset_busy : s.releaseReset.busy = s.busy := rfl
@[simp] theorem State.releaseReset_done : s.releaseReset.done = s.done := rfl
@[simp] theorem State.releaseReset_keyed : s.releaseReset.keyed = s.keyed := rfl
@[simp] theorem State.releaseReset_collide : s.releaseReset.collide = s.collide := rfl
@[simp] theorem State.releaseReset_err : s.releaseReset.err = s.err := rfl
@[simp] theorem State.releaseReset_len : s.releaseReset.len = s.len := rfl
@[simp] theorem State.releaseReset_resultLo : s.releaseReset.resultLo = s.resultLo := rfl
@[simp] theorem State.releaseReset_resultHi : s.releaseReset.resultHi = s.resultHi := rfl
@[simp] theorem State.releaseReset_mkey : s.releaseReset.mkey = s.mkey := rfl
@[simp] theorem State.releaseReset_miv : s.releaseReset.miv = s.miv := rfl
@[simp] theorem State.releaseReset_salt : s.releaseReset.salt = s.salt := rfl
@[simp] theorem State.releaseReset_skey : s.releaseReset.skey = s.skey := rfl
@[simp] theorem State.releaseReset_siv : s.releaseReset.siv = s.siv := rfl
@[simp] theorem State.releaseReset_din : s.releaseReset.din = s.din := rfl
@[simp] theorem State.releaseReset_dout : s.releaseReset.dout = s.dout := rfl
@[simp] theorem State.releaseReset_cmdLatch : s.releaseReset.cmdLatch = s.cmdLatch := rfl
@[simp] theorem State.releaseReset_resetLine : s.releaseReset.resetLine = false := rfl
@[simp] theorem State.releaseReset_inputs : s.releaseReset.inputs = s.inputs := rfl
@[simp] theorem State.releaseReset_response : s.releaseReset.response = s.response := rfl
@[simp] theorem State.releaseReset_drawn : s.releaseReset.drawn = s.drawn := rfl

@[simp] theorem State.launchNext_ie (w : Word) : (s.launchNext w).ie = s.ie := rfl
@[simp] theorem State.launchNext_busy (w : Word) : (s.launchNext w).busy = true := rfl
@[simp] theorem State.launchNext_done (w : Word) : (s.launchNext w).done = false := rfl
@[simp] theorem State.launchNext_keyed (w : Word) : (s.launchNext w).keyed = s.keyed := rfl
@[simp] theorem State.launchNext_collide (w : Word) : (s.launchNext w).collide = s.collide := rfl
@[simp] theorem State.launchNext_err (w : Word) : (s.launchNext w).err = s.err := rfl
@[simp] theorem State.launchNext_len (w : Word) : (s.launchNext w).len = s.len := rfl
@[simp] theorem State.launchNext_resultLo (w : Word) : (s.launchNext w).resultLo = s.resultLo := rfl
@[simp] theorem State.launchNext_resultHi (w : Word) : (s.launchNext w).resultHi = s.resultHi := rfl
@[simp] theorem State.launchNext_mkey (w : Word) : (s.launchNext w).mkey = s.mkey := rfl
@[simp] theorem State.launchNext_miv (w : Word) : (s.launchNext w).miv = s.miv := rfl
@[simp] theorem State.launchNext_salt (w : Word) : (s.launchNext w).salt = s.salt := rfl
@[simp] theorem State.launchNext_skey (w : Word) : (s.launchNext w).skey = s.skey := rfl
@[simp] theorem State.launchNext_siv (w : Word) : (s.launchNext w).siv = s.siv := rfl
@[simp] theorem State.launchNext_din (w : Word) : (s.launchNext w).din = s.din := rfl
@[simp] theorem State.launchNext_dout (w : Word) : (s.launchNext w).dout = s.dout := rfl
@[simp] theorem State.launchNext_cmdLatch (w : Word) : (s.launchNext w).cmdLatch = w := rfl
@[simp] theorem State.launchNext_resetLine (w : Word) : (s.launchNext w).resetLine = s.resetLine := rfl
@[simp] theorem State.launchNext_inputs (w : Word) : (s.launchNext w).inputs = engineNext s.inputs := rfl
@[simp] theorem State.launchNext_response (w : Word) : (s.launchNext w).response = s.response := rfl
@[simp] theorem State.launchNext_drawn (w : Word) : (s.launchNext w).drawn = s.drawn := rfl

end Sys2Proof.Machine
end

