-- ==== Sys2Proof/Laws/Exec.lean ====
section
/-! SUPPORT. What a command can do, said once: every command ends in the completion R104 of a result, and
each result is an error or a state with the command's pending writes. -/

namespace Sys2Proof.Machine

/-- The result of a command's pseudocode: its pending writes, or its error. -/
def commandResult (i : Instr) (s : State) : Except ErrorCode State :=
  match i with
  | .nop => .ok s
  | .derive => deriveResult s
  | .encrypt => frameResult s (frameEnc Config.blockCipher)
  | .decrypt => frameResult s (frameDec Config.blockCipher)
  | .getbw src start n le => getbwResult s src start n le
  | .clear => clearResult s

/-- Every command ends in the completion of its result (40_command_cycle.md R104). -/
theorem exec_eq_complete (i : Instr) (s : State) : exec i s = .next (s.complete (commandResult i s)) := by
  cases i <;> rfl

/-- A decoded command never stops. -/
theorem exec_next (i : Instr) (s : State) : ∃ t, exec i s = .next t := ⟨_, exec_eq_complete i s⟩

theorem deriveResult_error {s : State} (h : s.keyed = true) : deriveResult s = .error .alreadyKeyed := by
  simp [deriveResult, h]

theorem deriveResult_ok {s : State} (h : s.keyed = false) :
    deriveResult s =
      .ok { s with skey := deriveBlock s.mkey s.salt, siv := deriveBlock s.miv s.salt, keyed := true } := by
  simp [deriveResult, h]

theorem frameResult_notKeyed {s : State} (f) (h : s.keyed = false) : frameResult s f = .error .notKeyed := by
  simp [frameResult, h]

theorem frameResult_short {s : State} (f) (h : s.keyed = true) (hl : s.frameLen < 16) :
    frameResult s f = .error .invalidArgument := by
  simp [frameResult, h, Config.lenMinCipher, hl]

theorem frameResult_ok {s : State} (f) (h : s.keyed = true) (hl : 16 ≤ s.frameLen) :
    frameResult s f = .ok { s with dout := Memory.writeBytes s.dout 0 (f s.skey s.siv s.inputFrame) } := by
  simp [frameResult, h, Config.lenMinCipher, Nat.not_lt.2 hl]

/-- Everything an ENCRYPT or DECRYPT can do before its completion. -/
theorem frameResult_cases (s : State) (f) :
    (s.keyed = false ∧ frameResult s f = .error .notKeyed) ∨
    (s.keyed = true ∧ s.frameLen < 16 ∧ frameResult s f = .error .invalidArgument) ∨
    (s.keyed = true ∧ 16 ≤ s.frameLen ∧
      frameResult s f =
        .ok { s with dout := Memory.writeBytes s.dout 0 (f s.skey s.siv s.inputFrame) }) := by
  rcases Bool.eq_false_or_eq_true s.keyed with h | h
  case inr => exact .inl ⟨h, frameResult_notKeyed f h⟩
  case inl =>
    by_cases hl : s.frameLen < 16
    · exact .inr (.inl ⟨h, hl, frameResult_short f h hl⟩)
    · exact .inr (.inr ⟨h, by omega, frameResult_ok f h (by omega)⟩)

/-- Everything a GETBW can do before its completion (41_bitreader.md R120). -/
theorem getbwResult_cases (s : State) (src : BufSel) (start n : Nat) (le : Bool) :
    ((n = 0 ∨ 32 < n) ∧ getbwResult s src start n le = .error .invalidArgument) ∨
    (((9 ≤ n ∧ n ≤ 15) ∨ (17 ≤ n ∧ n ≤ 31)) ∧ getbwResult s src start n le = .error .unsupportedWidth) ∨
    (n ∈ Config.bitlenValid ∧ 8 * s.frameLen < start + n ∧
      getbwResult s src start n le = .error .outOfRange) ∨
    (n ∈ Config.bitlenValid ∧ start + n ≤ 8 * s.frameLen ∧
      getbwResult s src start n le =
        .ok { s with resultLo := BitVec.ofNat 32 (bitword (s.buffer src) start n le), resultHi := 0#32 }) := by
  unfold getbwResult
  by_cases h1 : n = 0 ∨ 32 < n
  · exact .inl ⟨h1, if_pos h1⟩
  · rw [if_neg h1]
    by_cases h2 : (9 ≤ n ∧ n ≤ 15) ∨ (17 ≤ n ∧ n ≤ 31)
    · exact .inr (.inl ⟨h2, if_pos h2⟩)
    · rw [if_neg h2]
      have hv : n ∈ Config.bitlenValid := by
        have : n = 1 ∨ n = 2 ∨ n = 3 ∨ n = 4 ∨ n = 5 ∨ n = 6 ∨ n = 7 ∨ n = 8 ∨ n = 16 ∨ n = 32 := by
          omega
        simpa [Config.bitlenValid] using this
      by_cases h3 : 8 * s.frameLen < start + n
      · exact .inr (.inr (.inl ⟨hv, h3, if_pos h3⟩))
      · exact .inr (.inr (.inr ⟨hv, by omega, if_neg h3⟩))

/-- What no command's pending writes touch (40_command_cycle.md R109): every register but DOUT, RESULT,
SKEY, SIV and KEYED. -/
theorem commandResult_frame {i : Instr} {s p : State} (h : commandResult i s = .ok p) :
    p = { s with keyed := p.keyed, resultLo := p.resultLo, resultHi := p.resultHi, skey := p.skey,
                 siv := p.siv, dout := p.dout } := by
  have done : ∀ {q : State}, (Except.ok q : Except ErrorCode State) = .ok p → q = p := Except.ok.inj
  cases i with
  | nop => rw [← done h]
  | derive =>
    rcases Bool.eq_false_or_eq_true s.keyed with hk | hk
    · rw [commandResult, deriveResult_error hk] at h; exact nomatch h
    · rw [commandResult, deriveResult_ok hk] at h; rw [← done h]
  | encrypt =>
    rcases frameResult_cases s (frameEnc Config.blockCipher) with ⟨_, he⟩ | ⟨_, _, he⟩ | ⟨_, _, he⟩
    · rw [commandResult, he] at h; exact nomatch h
    · rw [commandResult, he] at h; exact nomatch h
    · rw [commandResult, he] at h; rw [← done h]
  | decrypt =>
    rcases frameResult_cases s (frameDec Config.blockCipher) with ⟨_, he⟩ | ⟨_, _, he⟩ | ⟨_, _, he⟩
    · rw [commandResult, he] at h; exact nomatch h
    · rw [commandResult, he] at h; exact nomatch h
    · rw [commandResult, he] at h; rw [← done h]
  | getbw src start n le =>
    rcases getbwResult_cases s src start n le with ⟨_, he⟩ | ⟨_, he⟩ | ⟨_, _, he⟩ | ⟨_, _, he⟩
    · rw [commandResult, he] at h; exact nomatch h
    · rw [commandResult, he] at h; exact nomatch h
    · rw [commandResult, he] at h; exact nomatch h
    · rw [commandResult, he] at h; rw [← done h]
  | clear => rw [commandResult, clearResult] at h; rw [← done h]

end Sys2Proof.Machine
end

