-- ==== Sys2Proof/Laws/Step.lean ====
section
/-! SUPPORT. What a step, an input and a host access can do, said once; and where the engine's turn is. -/

namespace Sys2Proof.Machine

/-- Everything a host access can do: a bus error, a read, a write that is dropped, a write that is made. -/
theorem hostAccess_cases (s : State) (a : HostAccess) :
    (a.target = none ∧ s.hostAccess a = s.respond .busError) ∨
    (∃ t, a.target = some t ∧ a.op = .read ∧ s.busy = true ∧ t.engineWritten = true ∧
      s.hostAccess a = s.respondUnspecified) ∨
    (∃ t, a.target = some t ∧ a.op = .read ∧ (s.busy = false ∨ t.engineWritten = false) ∧
      s.hostAccess a = s.respond (.data (s.readTarget t))) ∨
    (∃ t v, a.target = some t ∧ a.op = .write v ∧ s.busy = true ∧ t.guarded = true ∧
      s.hostAccess a = s.drop.respond .written) ∨
    (∃ t v, a.target = some t ∧ a.op = .write v ∧ (s.busy = false ∨ t.guarded = false) ∧
      s.hostAccess a = (s.writeTarget v t).respond .written) := by
  unfold State.hostAccess
  cases ht : a.target with
  | none => exact .inl ⟨rfl, rfl⟩
  | some t =>
    cases ho : a.op with
    | read =>
      simp only [State.hostRead]
      cases hb : s.busy <;> cases he : t.engineWritten <;> simp [he]
    | write v =>
      simp only [State.hostWrite]
      cases hb : s.busy <;> cases hg : t.guarded <;> simp [hg]

/-- A step with no input waiting is the engine's turn. -/
theorem step_nil {s : State} (h : s.inputs = []) : step s = engineTurn s := by
  simp [step, turn, h]

/-- A step with an input waiting takes it. -/
theorem step_cons {s : State} {x : Input} {rest : List Input} (h : s.inputs = x :: rest) :
    step s = takeInput x { s with inputs := rest } := by
  simp [step, turn, h]

@[simp] theorem step_with_cons (s : State) (x : Input) (rest : List Input) :
    step { s with inputs := x :: rest } = takeInput x { s with inputs := rest } := rfl

/-- When the engine has the next turn, the step is its turn on the remaining inputs. -/
theorem step_engine {s : State} (h : s.engineIsNext = true) :
    step s = engineTurn { s with inputs := s.inputs.tail } := by
  unfold State.engineIsNext at h
  split at h
  · next hi => rw [step_nil hi]; simp only [hi, List.tail_nil]; rw [← hi]
  · next rest hi => rw [step_cons hi]; simp only [hi, List.tail_cons]; rfl
  all_goals cases h

/-- Everything the engine's turn can do (40_command_cycle.md R103, R105). -/
theorem engineTurn_cases (s : State) :
    (s.busy = false ∧ engineTurn s = .next s) ∨
    (∃ i, s.busy = true ∧ decode s.cmdLatch = .ok i ∧
      engineTurn s = .next (s.complete (commandResult i s))) ∨
    (∃ e, s.busy = true ∧ decode s.cmdLatch = .error e ∧
      engineTurn s = .next (s.complete (.error .illegalCommand))) := by
  unfold engineTurn engineRun
  cases hb : s.busy with
  | false => exact .inl ⟨rfl, rfl⟩
  | true =>
    cases hd : decode s.cmdLatch with
    | ok i => exact .inr (.inl ⟨i, rfl, rfl, exec_eq_complete i s⟩)
    | error e => exact .inr (.inr ⟨e, rfl, rfl, rfl⟩)

/-- The completion the engine makes when a command is in flight, whichever word it is. -/
theorem engineTurn_complete {s : State} (h : s.busy = true) :
    ∃ r, engineTurn s = .next (s.complete r) ∧
      ((∃ i, decode s.cmdLatch = .ok i ∧ r = commandResult i s) ∨
       (∃ e, decode s.cmdLatch = .error e ∧ r = .error .illegalCommand)) := by
  rcases engineTurn_cases s with ⟨hb, _⟩ | ⟨i, _, hd, he⟩ | ⟨e, _, hd, he⟩
  · rw [h] at hb; cases hb
  · exact ⟨_, he, .inl ⟨i, hd, rfl⟩⟩
  · exact ⟨_, he, .inr ⟨e, hd, rfl⟩⟩

/-- Everything an input can do when it leads to a next state. -/
theorem takeInput_cases {x : Input} {s t : State} (h : takeInput x s = .next t) :
    (∃ a, (x = .host a ∨ ∃ addr, x = .bus addr a.size a.op ∧ windowOffset addr = some a.off) ∧
      s.resetLine = false ∧ t = s.hostAccess a) ∨
    (x = .engine ∧ engineTurn s = .next t) ∨
    (x = .assertReset ∧ t = s.assertReset) ∨
    (x = .releaseReset ∧ t = s.releaseReset) := by
  have hostCase : ∀ a, hostTurn a s = .next t → s.resetLine = false ∧ t = s.hostAccess a := by
    intro a ha
    unfold hostTurn at ha
    cases hr : s.resetLine <;> simp [hr] at ha
    exact ⟨rfl, ha.symm⟩
  cases x with
  | host a => exact .inl ⟨a, .inl rfl, hostCase a h⟩
  | bus addr size op =>
    simp only [takeInput] at h
    split at h
    · next off ho => exact .inl ⟨⟨off, size, op⟩, .inr ⟨addr, rfl, ho⟩, hostCase _ h⟩
    · cases h
  | engine => exact .inr (.inl ⟨rfl, h⟩)
  | assertReset => cases h; exact .inr (.inr (.inl ⟨rfl, rfl⟩))
  | releaseReset => cases h; exact .inr (.inr (.inr ⟨rfl, rfl⟩))

/-- Everything a step can do when it leads to a next state: the engine's turn, or a host access, or an
edge of the reset input, on the remaining inputs. -/
theorem step_cases {s t : State} (h : step s = .next t) :
    ∃ u, u = { s with inputs := s.inputs.tail } ∧
      ((s.engineIsNext = true ∧ engineTurn u = .next t) ∨
       (∃ a, s.resetLine = false ∧ t = u.hostAccess a) ∨
       (s.inputs.head? = some .assertReset ∧ t = u.assertReset) ∨
       (s.inputs.head? = some .releaseReset ∧ t = u.releaseReset)) := by
  refine ⟨_, rfl, ?_⟩
  cases hi : s.inputs with
  | nil =>
    rw [step_nil hi] at h
    refine .inl ⟨by simp [State.engineIsNext, hi], ?_⟩
    rwa [List.tail_nil, ← hi]
  | cons x rest =>
    rw [step_cons hi] at h
    rcases takeInput_cases h with ⟨a, _, hr, ht⟩ | ⟨rfl, he⟩ | ⟨rfl, ht⟩ | ⟨rfl, ht⟩
    · exact .inr (.inl ⟨a, hr, ht⟩)
    · exact .inl ⟨by simp [State.engineIsNext, hi], he⟩
    · exact .inr (.inr (.inl ⟨rfl, ht⟩))
    · exact .inr (.inr (.inr ⟨rfl, ht⟩))

end Sys2Proof.Machine
end

