-- ==== Sys2Proof/Laws/Bus.lean ====
section
/-! SUPPORT. The address map: which words of the byte arrays it names. -/

namespace Sys2Proof.Machine

/-- The word number of a target stays inside its byte array (20_memory.md R53). -/
def Target.inRange : Target → Prop
  | .mkey k => k < 4
  | .miv k => k < 4
  | .skey k => k < 4
  | .siv k => k < 4
  | .din k => k < 64
  | .dout k => k < 64
  | .id => True
  | .ctrl => True
  | .cmd => True
  | .status => True
  | .len => True
  | .resultLo => True
  | .resultHi => True
  | .saltLow => True
  | .saltHigh => True

/-- A mapped offset lies in one of the rows. -/
theorem mapRows_some {off : Nat} {rows : List MapRow} {t : Target} (h : mapRows off rows = some t) :
    ∃ row ∈ rows, row.first ≤ off ∧ off ≤ row.last ∧ t = row.target ((off - row.first) / 4) := by
  induction rows with
  | nil => exact nomatch h
  | cons row rest ih =>
    rw [mapRows] at h
    split at h
    · next hr => exact ⟨row, List.mem_cons_self, hr.1, hr.2, (Option.some.inj h).symm⟩
    · obtain ⟨r, hm, hr⟩ := ih h
      exact ⟨r, List.mem_cons_of_mem _ hm, hr⟩

/-- The address map names only words inside their arrays. -/
theorem mapOffset_inRange {off : Nat} {t : Target} (h : mapOffset off = some t) : t.inRange := by
  obtain ⟨row, hm, h1, h2, rfl⟩ := mapRows_some h
  simp only [addressMap, List.mem_cons, List.not_mem_nil, or_false] at hm
  rcases hm with rfl | rfl | rfl | rfl | rfl | rfl | rfl | rfl | rfl | rfl | rfl | rfl | rfl | rfl | rfl <;>
    first
      | trivial
      | (simp only [Target.inRange] at *; omega)

/-- What an access reaches lies inside its array. -/
theorem HostAccess.target_inRange {a : HostAccess} {t : Target} (h : a.target = some t) : t.inRange := by
  unfold HostAccess.target at h
  split at h
  · exact mapOffset_inRange h
  · exact nomatch h

/-- An aligned 32-bit access reaches what the address map says. -/
theorem HostAccess.target_of_aligned (off : Offset) (op : BusOp) (h : off.toNat % 4 = 0) :
    (HostAccess.mk off 4 op).target = mapOffset off.toNat := by
  simp [HostAccess.target, HostAccess.aligned, h]

/-- A 32-bit read of a mapped offset that is not unspecified. -/
theorem readAt_mapped (s : State) (off : Offset) (t : Target) (ha : off.toNat % 4 = 0)
    (hm : mapOffset off.toNat = some t) (h : (s.busy && t.engineWritten) = false) :
    s.readAt off = { s with response := .data (s.readTarget t) } := by
  simp [State.readAt, State.hostAccess, HostAccess.target_of_aligned off _ ha, hm, State.hostRead, h,
    State.respond]

/-- A 32-bit write of a mapped offset that is not dropped. -/
theorem writeAt_mapped (s : State) (off : Offset) (v : Word) (t : Target) (ha : off.toNat % 4 = 0)
    (hm : mapOffset off.toNat = some t) (h : (s.busy && t.guarded) = false) :
    s.writeAt off v = { s.writeTarget v t with response := .written } := by
  simp [State.writeAt, State.hostAccess, HostAccess.target_of_aligned off _ ha, hm, State.hostWrite, h,
    State.respond]

theorem offset_aligned (n : Nat) (h : n % 4 = 0) : (BitVec.ofNat 12 n).toNat % 4 = 0 := by
  simp
  omega

theorem mapOffset_mkey : ∀ k < 4, mapOffset (BitVec.ofNat 12 (0x020 + 4 * k)).toNat = some (.mkey k) := by
  decide

theorem mapOffset_miv : ∀ k < 4, mapOffset (BitVec.ofNat 12 (0x030 + 4 * k)).toNat = some (.miv k) := by
  decide

theorem mapOffset_skey : ∀ k < 4, mapOffset (BitVec.ofNat 12 (0x050 + 4 * k)).toNat = some (.skey k) := by
  decide

theorem mapOffset_siv : ∀ k < 4, mapOffset (BitVec.ofNat 12 (0x060 + 4 * k)).toNat = some (.siv k) := by
  decide

theorem mapOffset_din : ∀ k < 64, mapOffset (BitVec.ofNat 12 (0x100 + 4 * k)).toNat = some (.din k) := by
  decide

theorem mapOffset_dout : ∀ k < 64, mapOffset (BitVec.ofNat 12 (0x200 + 4 * k)).toNat = some (.dout k) := by
  decide

end Sys2Proof.Machine
end

