-- ==== Sys2Proof/Laws/Decode.lean ====
section
/-! SUPPORT. The fields of a command word as numbers, and the two formats in those terms
(30_encoding.md R80, R81). -/

namespace Sys2Proof

theorem opField_toNat (w : Word) : (opField w).toNat = w.toNat % 16 := by
  simp [opField, BitVec.extractLsb'_toNat]

theorem upperField_toNat (w : Word) : (upperField w).toNat = w.toNat / 16 := by
  have := w.isLt
  simp [upperField, BitVec.extractLsb'_toNat, Nat.shiftRight_eq_div_pow]
  omega

theorem res0Field_toNat (w : Word) : (res0Field w).toNat = w.toNat / 2 ^ 6 % 4 := by
  simp [res0Field, BitVec.extractLsb'_toNat, Nat.shiftRight_eq_div_pow]

theorem res1Field_toNat (w : Word) : (res1Field w).toNat = w.toNat / 2 ^ 14 % 4 := by
  simp [res1Field, BitVec.extractLsb'_toNat, Nat.shiftRight_eq_div_pow]

theorem bitlenField_lt (w : Word) : (bitlenField w).toNat < 64 := (bitlenField w).isLt

theorem startField_lt (w : Word) : (startField w).toNat < 65536 := (startField w).isLt

@[simp] theorem srcOfBuf_bufOfSrc (b : Bool) : srcOfBuf (bufOfSrc b) = b := by cases b <;> rfl

@[simp] theorem bufOfSrc_srcOfBuf (b : BufSel) : bufOfSrc (srcOfBuf b) = b := by cases b <;> rfl

theorem decodeFormatN_eq (w : Word) (i : Instr) :
    decodeFormatN w i = if w.toNat / 16 = 0 then .ok i else .error .formatNBitsSet := by
  unfold decodeFormatN
  have h : upperField w = 0 ↔ w.toNat / 16 = 0 := by rw [BitVec.toNat_eq, upperField_toNat]; rfl
  simp only [h]

theorem decodeFormatB_eq (w : Word) :
    decodeFormatB w =
      if w.toNat / 2 ^ 6 % 4 = 0 ∧ w.toNat / 2 ^ 14 % 4 = 0 then
        .ok (.getbw (bufOfSrc (srcBit w)) (startField w).toNat (bitlenField w).toNat (leBit w))
      else .error .formatBReservedSet := by
  unfold decodeFormatB
  have h0 : res0Field w = 0 ↔ w.toNat / 2 ^ 6 % 4 = 0 := by rw [BitVec.toNat_eq, res0Field_toNat]; rfl
  have h1 : res1Field w = 0 ↔ w.toNat / 2 ^ 14 % 4 = 0 := by rw [BitVec.toNat_eq, res1Field_toNat]; rfl
  simp only [h0, h1]

end Sys2Proof
end

