-- ==== Sys2Proof/Laws/Frame.lean ====
section
/-! SUPPORT. Blocks of a frame: reading one that was put, putting back what was read, lengths. -/

namespace Sys2Proof.Machine

theorem length_putBlock (w : List Byte) (o : Nat) (b : Block) (h : o + 16 ≤ w.length) :
    (putBlock w o b).length = w.length := by
  simp [putBlock, Config.blockBytes]
  omega

/-- Byte `j` of a frame with a block put at `o`. -/
theorem getD_putBlock (w : List Byte) (o : Nat) (b : Block) (h : o + 16 ≤ w.length) (j : Nat) :
    (putBlock w o b).getD j 0#8 = if o ≤ j ∧ j < o + 16 then b.byte (j - o) else w.getD j 0#8 := by
  have hlen : (w.take o).length = o := by simp; omega
  unfold putBlock
  rw [List.append_assoc]
  by_cases h1 : j < o
  · rw [if_neg (by omega), List.getD_append _ _ _ _ (by omega)]
    simp [List.getD_eq_getElem?_getD, h1]
  · rw [List.getD_append_right _ _ _ _ (by omega), hlen]
    by_cases h2 : j < o + 16
    · rw [if_pos ⟨by omega, h2⟩, List.getD_append _ _ _ _ (by simp; omega),
        Block.getD_toList b (j - o) (by omega)]
    · rw [if_neg (by omega), List.getD_append_right _ _ _ _ (by simp; omega)]
      simp only [Block.length_toList, Config.blockBytes, List.getD_eq_getElem?_getD, List.getElem?_drop]
      congr 2
      omega

/-- Byte `i` of the block of a frame at `o`. -/
@[simp] theorem byte_blockAt (w : List Byte) (o i : Nat) (h : i < 16) :
    (blockAt w o).byte i = w.getD (o + i) 0#8 := Block.byte_ofFn _ i h

/-- Reading the block that was put. -/
theorem blockAt_putBlock (w : List Byte) (o : Nat) (b : Block) (h : o + 16 ≤ w.length) :
    blockAt (putBlock w o b) o = b :=
  Block.ext_byte fun i hi => by
    rw [byte_blockAt _ _ _ hi, getD_putBlock w o b h, if_pos ⟨by omega, by omega⟩]
    congr 1
    omega

theorem frame_ext {v w : List Byte} (hl : v.length = w.length)
    (h : ∀ j < v.length, v.getD j 0#8 = w.getD j 0#8) : v = w := by
  apply List.ext_getElem hl
  intro j hv hw
  have := h j hv
  rwa [List.getD_eq_getElem _ _ hv, List.getD_eq_getElem _ _ hw] at this

/-- Putting a second block at the same place leaves only the second. -/
theorem putBlock_putBlock (w : List Byte) (o : Nat) (a b : Block) (h : o + 16 ≤ w.length) :
    putBlock (putBlock w o a) o b = putBlock w o b := by
  have h' : o + 16 ≤ (putBlock w o a).length := by rw [length_putBlock w o a h]; exact h
  refine frame_ext (by rw [length_putBlock _ o b h', length_putBlock w o a h, length_putBlock w o b h]) ?_
  intro j _
  rw [getD_putBlock _ o b h', getD_putBlock w o a h, getD_putBlock w o b h]
  split <;> rfl

/-- Putting back the block that was read changes nothing. -/
theorem putBlock_blockAt (w : List Byte) (o : Nat) (h : o + 16 ≤ w.length) :
    putBlock w o (blockAt w o) = w := by
  refine frame_ext (length_putBlock w o _ h) ?_
  intro j _
  rw [getD_putBlock w o _ h]
  split
  · next hj =>
    rw [byte_blockAt _ _ _ (by omega)]
    congr 1
    omega
  · rfl

/-- A frame operation at `o` followed by one that undoes its block function restores the frame. -/
theorem putBlock_undo (f g : Block → Block) (hfg : ∀ b, g (f b) = b) (w : List Byte) (o : Nat)
    (h : o + 16 ≤ w.length) :
    putBlock (putBlock w o (f (blockAt w o))) o (g (blockAt (putBlock w o (f (blockAt w o))) o)) = w := by
  rw [blockAt_putBlock w o _ h, hfg, putBlock_putBlock w o _ _ h, putBlock_blockAt w o h]

theorem length_encryptAt (c : BlockCipher) (K IV : Block) (o : Nat) (w : List Byte)
    (h : o + 16 ≤ w.length) : (encryptAt c K IV o w).length = w.length := length_putBlock w o _ h

theorem length_decryptAt (c : BlockCipher) (K IV : Block) (o : Nat) (w : List Byte)
    (h : o + 16 ≤ w.length) : (decryptAt c K IV o w).length = w.length := length_putBlock w o _ h

/-- A frame of more than one block: leading block, then trailing block (43_frame_cipher.md R162). -/
theorem frameEnc_long (c : BlockCipher) (K IV : Block) (x : List Byte) (h : 16 < x.length) :
    frameEnc c K IV x = encryptAt c K IV (x.length - 16) (encryptAt c K IV 0 x) := if_pos h

theorem frameEnc_short (c : BlockCipher) (K IV : Block) (x : List Byte) (h : ¬16 < x.length) :
    frameEnc c K IV x = encryptAt c K IV 0 x := if_neg h

/-- A frame of more than one block: trailing block, then leading block (43_frame_cipher.md R164). -/
theorem frameDec_long (c : BlockCipher) (K IV : Block) (y : List Byte) (h : 16 < y.length) :
    frameDec c K IV y = decryptAt c K IV 0 (decryptAt c K IV (y.length - 16) y) := by
  unfold frameDec
  simp only [if_pos h]

theorem frameDec_short (c : BlockCipher) (K IV : Block) (y : List Byte) (h : ¬16 < y.length) :
    frameDec c K IV y = decryptAt c K IV 0 y := by
  unfold frameDec
  simp only [if_neg h]

/-- `frame_enc` keeps the length (43_frame_cipher.md R167). -/
theorem length_frameEnc (c : BlockCipher) (K IV : Block) (x : List Byte) (h : 16 ≤ x.length) :
    (frameEnc c K IV x).length = x.length := by
  have h1 := length_encryptAt c K IV 0 x (by omega)
  by_cases hl : 16 < x.length
  · rw [frameEnc_long c K IV x hl, length_encryptAt _ _ _ _ _ (by omega), h1]
  · rw [frameEnc_short c K IV x hl, h1]

/-- `frame_dec` keeps the length (43_frame_cipher.md R167). -/
theorem length_frameDec (c : BlockCipher) (K IV : Block) (x : List Byte) (h : 16 ≤ x.length) :
    (frameDec c K IV x).length = x.length := by
  by_cases hl : 16 < x.length
  · have h1 := length_decryptAt c K IV (x.length - 16) x (by omega)
    rw [frameDec_long c K IV x hl, length_decryptAt _ _ _ _ _ (by omega), h1]
  · rw [frameDec_short c K IV x hl, length_decryptAt c K IV 0 x (by omega)]

/-- The input frame is `DIN[0..L)` (20_memory.md R63). -/
theorem inputFrame_eq_frame (s : State) : s.inputFrame = Memory.frame s.din s.len.toNat := by
  apply frame_ext
  · simp [State.inputFrame]
  · intro j hj
    simp only [State.inputFrame, Memory.length_readBytes] at hj
    rw [State.inputFrame, Memory.getD_readBytes _ _ _ _ hj]
    simp [List.getD_eq_getElem?_getD, hj]

@[simp] theorem length_inputFrame (s : State) : s.inputFrame.length = s.frameLen :=
  Memory.length_readBytes s.din 0 s.frameLen

end Sys2Proof.Machine
end

