-- ==== Sys2Proof/Laws/PerInstr.lean ====
section
/-! SUPPORT. Statements about every command as syntax, one lemma per constructor. -/

namespace Sys2Proof.Laws

/-- An encoded command matches its own row of spec/opcode_table.json (30_encoding.md R86):
`(word AND mask) = match`. -/
def MatchesRow.Statement (i : Instr) : Prop := encode i &&& rowMask i = rowMatch i

theorem MatchesRow.nop : MatchesRow.Statement .nop := by unfold MatchesRow.Statement; decide

theorem MatchesRow.derive : MatchesRow.Statement .derive := by unfold MatchesRow.Statement; decide

theorem MatchesRow.encrypt : MatchesRow.Statement .encrypt := by unfold MatchesRow.Statement; decide

theorem MatchesRow.decrypt : MatchesRow.Statement .decrypt := by unfold MatchesRow.Statement; decide

theorem MatchesRow.getbw (src : BufSel) (start n : Nat) (le : Bool) :
    MatchesRow.Statement (.getbw src start n le) := by
  unfold MatchesRow.Statement
  simp only [encode, encodeFormatB, rowMask, rowMatch]
  ext j hj
  interval_cases j <;> simp

theorem MatchesRow.clear : MatchesRow.Statement .clear := by unfold MatchesRow.Statement; decide

end Sys2Proof.Laws
end

