-- ==== Sys2Proof/Machine/HostProgram.lean ====
section
/-! DEFINITION. The host outside the block: the program notation of 30_encoding.md R88 with its
pseudo-statements, the host driving one block under any schedule of the engine, and the host's duties
(70_reset_and_hazards.md R246 to R248). None of it is part of the block (R88); the block is `step`. -/

namespace Sys2Proof.Machine

/-- A host statement (R88). Names are numbered; a label is the index of its statement. -/
inductive HostStmt where
  /-- `WR <off>, <imm32>` -/
  | wr (off : Offset) (v : Word)
  /-- `RD <off> -> <name>` -/
  | rd (off : Offset) (name : Nat)
  /-- `BNE <name>[hi:lo], <imm>, <label>` -/
  | bne (name hi lo imm label : Nat)
  /-- `HALT` -/
  | halt
  deriving DecidableEq, Repr

/-- A command mnemonic (R87, R88): `WR 0x008, <word>`. -/
def hostCommand (i : Instr) : HostStmt := .wr 0x008#12 (encode i)

/-- `WAIT` (R88) at statement index `here`, polling into `name`. -/
def hostWait (here name : Nat) : List HostStmt := [.rd 0x00C#12 name, .bne name 0 0 0 here]

/-- `ACK` (R88). -/
def hostAck : HostStmt := .wr 0x00C#12 0x00000002#32

/-- The words of `WRBYTES` (R88): groups of four bytes, missing bytes of the last group 0x00. -/
def hostWords : List Byte → List Word
  | [] => []
  | [x0] => [(Quad.mk x0 0 0 0).toWord]
  | [x0, x1] => [(Quad.mk x0 x1 0 0).toWord]
  | [x0, x1, x2] => [(Quad.mk x0 x1 x2 0).toWord]
  | x0 :: x1 :: x2 :: x3 :: rest => (Quad.mk x0 x1 x2 x3).toWord :: hostWords rest

/-- Writes of consecutive words from offset `b` on. -/
def hostWriteWords (b : Offset) : List Word → List HostStmt
  | [] => []
  | w :: rest => .wr b w :: hostWriteWords (b + 4#12) rest

/-- `WRBYTES <b>, <bytes>` (R88). -/
def hostWrBytes (b : Offset) (bytes : List Byte) : List HostStmt := hostWriteWords b (hostWords bytes)

/-- Reads of `n` consecutive words from offset `b` on into the names from `name` on. -/
def hostReadWords (b : Offset) (name : Nat) : Nat → List HostStmt
  | 0 => []
  | n + 1 => .rd b name :: hostReadWords (b + 4#12) (name + 1) n

/-- `RDBYTES <b>, <count> -> <name>` (R88): `ceil(count/4)` reads. -/
def hostRdBytes (b : Offset) (count name : Nat) : List HostStmt := hostReadWords b name ((count + 3) / 4)

/-- The bytes that `RDBYTES` unpacks from its words: the first `count` of their byte lanes in order (R88,
20_memory.md R57). -/
def hostUnpack (words : List Word) (count : Nat) : List Byte :=
  (words.flatMap fun w => (Quad.ofWord w).toList).take count

/-- A host running a program against one block. -/
structure HostRun where
  program : List HostStmt
  next : Nat
  names : List (Nat × Word)
  halted : Bool
  block : State
  deriving DecidableEq, Repr

/-- The word a name holds. DESIGN CHOICE (log 19), unsafe: 0 for a name never read, where R88 is
silent. -/
def HostRun.lookup (h : HostRun) (name : Nat) : Word :=
  match h.names.find? fun p => p.1 == name with
  | some p => p.2
  | none => 0#32

/-- The host after the bus access `a`, its response bound to `name` where it carries data. -/
def HostRun.access (h : HostRun) (a : HostAccess) (name : Option Nat) :
    Host.Outcome HostRun Fault Refusal :=
  match step { h.block with inputs := .host a :: h.block.inputs } with
  | .next t =>
    match name, t.response with
    | some x, .data w => .next { h with block := t, next := h.next + 1, names := (x, w) :: h.names }
    | some _, .none => .next { h with block := t, next := h.next + 1 }
    | some _, .written => .next { h with block := t, next := h.next + 1 }
    | some _, .busError => .next { h with block := t, next := h.next + 1 }
    | none, _ => .next { h with block := t, next := h.next + 1 }
  | .fault r => .fault r
  | .refused r => .refused r

/-- The field `name[hi:lo]` of a word (00_scope.md R7). -/
def wordField (w : Word) (hi lo : Nat) : Nat := (w.toNat >>> lo) % 2 ^ (hi + 1 - lo)

/-- The host executes its next statement (R88). DESIGN CHOICE (log 19), safe: running past the last
statement halts. -/
def hostStep (h : HostRun) : Host.Outcome HostRun Fault Refusal :=
  if h.halted then .next h
  else
    match h.program[h.next]? with
    | none => .next { h with halted := true }
    | some .halt => .next { h with halted := true }
    | some (.wr off v) => h.access ⟨off, 4, .write v⟩ none
    | some (.rd off name) => h.access ⟨off, 4, .read⟩ (some name)
    | some (.bne name hi lo imm label) =>
      .next { h with next := if wordField (h.lookup name) hi lo = imm then h.next + 1 else label }

/-- The engine of the host's block takes its turn (40_command_cycle.md R103). -/
def engineOfHost (h : HostRun) : Host.Outcome HostRun Fault Refusal :=
  match step { h.block with inputs := .engine :: h.block.inputs } with
  | .next t => .next { h with block := t }
  | .fault r => .fault r
  | .refused r => .refused r

/-- Who takes the next turn of the host and its block (20_memory.md R66). -/
inductive Agent where
  | host
  | engine
  deriving DecidableEq, Repr

/-- The host and its block under a schedule: any interleaving of host statements and engine turns
(40_command_cycle.md R103). -/
def runSchedule (h : HostRun) : List Agent → Host.Outcome HostRun Fault Refusal
  | [] => .next h
  | who :: rest =>
    match (match who with | .host => hostStep h | .engine => engineOfHost h) with
    | .next h' => runSchedule h' rest
    | .fault r => .fault r
    | .refused r => .refused r

/-- The salt of a peripheral address given as its octets in text order (70_reset_and_hazards.md R248):
the last six octets, byte-reversed. DESIGN CHOICE (log 20), unsafe: an address of fewer than six octets,
where the spec is silent, is padded with zero bytes. -/
def saltOfAddress (octets : List Byte) : List Byte :=
  (octets.reverse ++ [0, 0, 0, 0, 0, 0]).take Config.saltBytes

/-- The accesses that set up a session (R246, steps 2 to 4 without the wait), for a block that is out of
reset or CLEARed: MKEY, MIV, SALT, then DERIVE. -/
def hostConnect (masterKey masterIv salt : List Byte) : List HostStmt :=
  hostWrBytes 0x020#12 masterKey ++ hostWrBytes 0x030#12 masterIv ++ hostWrBytes 0x040#12 salt
    ++ [hostCommand .derive]

/-- The accesses that start a new connection (R247) after a CLEAR has completed: the new SALT, then
DERIVE. -/
def hostReconnect (salt : List Byte) : List HostStmt := hostWrBytes 0x040#12 salt ++ [hostCommand .derive]

end Sys2Proof.Machine
end

