-- ==== Sys2Proof/Tests/Slice0.lean ====
section
/-! SUPPORT. Tests. The expected words are written out from 30_encoding.md, the expected results are the
spec's own vectors (95_test_vectors.md). Last, one witness per statement that has hypotheses. -/

namespace Sys2Proof.Machine.Tests

open Sys2Proof Sys2Proof.Machine

/-! ### States and values for the tests -/

/-- Reset with concrete master values, so that the kernel can compare states. -/
def base : State := { State.reset with mkey := .zero, miv := .zero }

/-- `w` launched on `s`, then the engine's turn. -/
def after (s : State) (w : Word) : State :=
  match step (s.withFetchWord 32 w.toNat) with
  | .next t => t
  | .fault _ => s
  | .refused _ => s

def blockOf (l : List Byte) : Block := Block.ofFn fun i => l.getD i 0#8

def bufOf (l : List Byte) : Memory := Memory.writeBytes [] 0 l

/-- The session K4 of 95_test_vectors.md. -/
def keyedBase : State :=
  { base with
    keyed := true
    skey := blockOf [0x2C, 0x7E, 0x15, 0x95, 0xC2, 0x77, 0xD2, 0xA6, 0xAB, 0xF7, 0x15, 0x88, 0x09, 0xCF, 0x4F, 0x3C]
    siv := blockOf [0x01, 0x01, 0x02, 0x82, 0x9E, 0xCD, 0x06, 0x07, 0x08, 0x09, 0x0A, 0x0B, 0x0C, 0x0D, 0x0E, 0x0F] }

/-- The start state of the GETBW table of 95_test_vectors.md section 4. -/
def readerBase : State :=
  { base with
    din := bufOf [0x12, 0x34, 0x56, 0x78, 0x9A, 0xBC, 0xDE, 0xF0, 0, 0, 0, 0, 0, 0, 0, 0, 0, 0, 0, 0xA5]
    resultLo := 0xDEADBEEF#32 }

/-- A command in flight. -/
def flying : State := { base with busy := true }

/-! ### Encoding: words written out from the spec -/

theorem test_decode_nop : decode 0b00000000000000000000000000000000#32 = .ok .nop := by rfl
theorem test_decode_derive : decode 0b00000000000000000000000000000001#32 = .ok .derive := by rfl
theorem test_decode_encrypt : decode 0b00000000000000000000000000000010#32 = .ok .encrypt := by rfl
theorem test_decode_decrypt : decode 0b00000000000000000000000000000011#32 = .ok .decrypt := by rfl
theorem test_decode_clear : decode 0b00000000000000000000000000000101#32 = .ok .clear := by rfl

/-- START = 8, RES1 = 0, BITLEN = 8, RES0 = 0, SRC = 1, LE = 0, OP = 4: R87's `GETBW DOUT, 8, 8`. -/
theorem test_decode_getbw : decode 0b0000000000001000_00_001000_00_1_0_0100#32 = .ok (.getbw .dout 8 8 false) := by
  rfl

/-- START = 4, BITLEN = 16, SRC = 0, LE = 1: R87's `GETBW.LE DIN, 4, 16`. -/
theorem test_decode_getbw_le : decode 0b0000000000000100_00_010000_00_0_1_0100#32 = .ok (.getbw .din 4 16 true) := by
  rfl

/-- The same two words, encoded. -/
theorem test_encode_getbw :
    encode (.getbw .dout 8 8 false) = 0x00080824#32 ∧ encode (.getbw .din 4 16 true) = 0x00041014#32 := by decide

/-- R84's three kinds of illegal word. -/
theorem test_decode_illegal :
    decode 0x00000006#32 = .error .reservedOp ∧ decode 0x0000000F#32 = .error .reservedOp ∧
    decode 0x00000011#32 = .error .formatNBitsSet ∧ decode 0x80000000#32 = .error .formatNBitsSet ∧
    decode 0x00000044#32 = .error .formatBReservedSet ∧ decode 0x00008004#32 = .error .formatBReservedSet := by
  decide +kernel

/-- The syntax of R87. -/
theorem test_syntax : asmText (.getbw .din 4 16 true) = "GETBW.LE DIN, 4, 16" := by decide +kernel

/-! ### WellFormed: each check refuses an ill-formed command -/

theorem test_wf_start : Instr.wellFormed (.getbw .din 65536 8 false) = false := by decide
theorem test_wf_width : Instr.wellFormed (.getbw .din 0 64 false) = false := by decide

/-! ### The commands, on the spec's vectors -/

/-- NOP sets ERR = 0, DONE = 1 after an earlier error (40_command_cycle.md R106). -/
theorem test_nop : after { base with err := .notKeyed } 0x00000000#32 = { base with cmdLatch := 0, done := true } := by
  decide +kernel

/-- K3. -/
theorem test_derive :
    let t := after { base with mkey := blockOf [0, 1, 2, 3, 4, 5, 6, 7, 8, 9, 10, 11, 12, 13, 14, 15]
                               salt := ⟨0x01, 0xFF, 0x00, 0x7F, 0x9A, 0xC8⟩ } 0x00000001#32
    t.skey = blockOf [0x01, 0x01, 0x02, 0x82, 0x9E, 0xCD, 6, 7, 8, 9, 10, 11, 12, 13, 14, 15] ∧
    t.siv = blockOf [0x01, 0x00, 0x00, 0x7F, 0x9A, 0xC8] ∧ t.statusWord = 0x00000006#32 := by decide +kernel

/-- K5. -/
theorem test_derive_twice :
    (after keyedBase 0x00000001#32).statusWord = 0x00000606#32 ∧
    (after keyedBase 0x00000001#32).skey = keyedBase.skey := by decide +kernel

/-- C4, the overlapping frame. -/
theorem test_encrypt :
    (after { keyedBase with din := bufOf ((List.range 20).map (BitVec.ofNat 8)) } 0x00000002#32).dout =
      bufOf [0xA2, 0x3B, 0x4C, 0x47, 0xBE, 0x3D, 0xE1, 0x5D, 0x16, 0x50, 0x76, 0xE2, 0x92, 0x38, 0x23, 0x28, 0x17,
        0x20, 0xE8, 0xFB] := by decide +kernel

/-- E3: NOT_KEYED, DOUT unchanged. -/
theorem test_encrypt_unkeyed : after base 0x00000002#32 = { base with cmdLatch := 2, done := true, err := .notKeyed } := by
  decide +kernel

/-- C4. -/
theorem test_decrypt :
    (after { keyedBase with din := bufOf ((List.range 20).map (BitVec.ofNat 8)) } 0x00000003#32).dout =
      bufOf [0xBA, 0xCB, 0x49, 0x71, 0xCD, 0x3B, 0x45, 0x14, 0xFD, 0x6B, 0x1B, 0x2B, 0xF8, 0x0A, 0xC0, 0x90, 0x44,
        0x1C, 0x3C, 0x93] := by decide +kernel

/-- E2: LEN = 0. -/
theorem test_decrypt_short : (after { keyedBase with len := 0 } 0x00000003#32).err = .invalidArgument := by
  decide +kernel

/-- Rows of section 4: an unaligned byte-reversed field, and 32 bits. -/
theorem test_getbw :
    (after readerBase 0x00041014#32).resultLo = 0x00004523#32 ∧
    (after readerBase 0x00032004#32).resultLo = 0x91A2B3C4#32 := by decide +kernel

/-- Rows of section 4: one bit past the end, and width 40 checked before the range. -/
theorem test_getbw_errors :
    (after readerBase 0x00990804#32).err = .outOfRange ∧ (after readerBase 0x00C82804#32).err = .invalidArgument ∧
    (after readerBase 0x00990804#32).resultLo = 0xDEADBEEF#32 := by decide +kernel

/-- K6. -/
theorem test_clear :
    (after keyedBase 0x00000005#32).statusWord = 0x00000002#32 ∧ (after keyedBase 0x00000005#32).skey = Block.zero := by
  decide +kernel

/-- K8: an illegal word completes with ILLEGAL_COMMAND. -/
theorem test_illegal : (after base 0x00000011#32).statusWord = 0x00000102#32 := by decide +kernel

/-- 70_reset_and_hazards.md R248's example. -/
theorem test_salt : saltOfAddress [0xC8, 0x9A, 0x7F, 0x00, 0xFF, 0x01] = [0x01, 0xFF, 0x00, 0x7F, 0x9A, 0xC8] := by decide

/-- 20_memory.md R65's example bytes, as `RDBYTES` unpacks them. -/
theorem test_unpack : hostUnpack [0x78563412#32, 0x000000F0#32] 5 = [0x12, 0x34, 0x56, 0x78, 0xF0] := by decide

/-- The table hook answers the decoder's instruction. -/
theorem test_table_word : decodeTableWord 32 0x00080824 = some (.getbw .dout 8 8 false) := by decide

/-! ### Witnesses: a state and operands that meet the hypotheses of each statement -/

theorem test_witness_DecodeOfEncode : Instr.wellFormed (.getbw .dout 65535 63 true) = true := by decide

theorem test_witness_EncodeOfDecode : decode 0xFFFF3F34#32 = .ok (.getbw .dout 65535 63 true) := by decide

theorem test_witness_StepRunsTheDecodedCommand :
    flying.busy = true ∧ flying.engineIsNext = true ∧ decode flying.cmdLatch = .ok .nop := by decide

theorem test_witness_IllegalWordCompletesWithError :
    let s := { flying with cmdLatch := 0x00000006#32 }
    s.busy = true ∧ s.engineIsNext = true ∧ decode s.cmdLatch = .error .reservedOp := by decide

theorem test_witness_IdleEngineDoesNothing : base.busy = false ∧ base.engineIsNext = true := by decide

theorem test_witness_HostAccessIsOneStep : base.resetLine = false := by decide

theorem test_witness_BusWindowStandsForOffsets :
    Config.blockBase + 4096 < Config.blockBase ∨ Config.blockBase + 4096 ≤ Config.blockBase + 4096 :=
  .inr (Nat.le_refl _)

theorem test_witness_DeriveWritesTheSession : base.keyed = false := by decide

theorem test_witness_DeriveTwiceFails : keyedBase.keyed = true := by decide

/-- A byte pair for each clause: sums 255, 510 and 256; 0xFF with 0; a salt byte 0xFF. -/
theorem test_witness_DerivationCorners :
    let M := blockOf [0xFF, 0xFF, 0x01, 0x80, 0x00, 0xFE]
    let S : Salt := ⟨0x00, 0xFF, 0xFF, 0x7F, 0xFF, 0x02⟩
    (M.byte 3).toNat + (S.byte 3).toNat = 255 ∧ (M.byte 1).toNat + (S.byte 1).toNat = 510 ∧
    (M.byte 0 = 0xFF#8 ∧ S.byte 0 = 0#8) ∧ (S.byte 4 = 0xFF#8 ∧ M.byte 4 ≠ 0xFF#8) ∧
    (M.byte 5).toNat + (S.byte 5).toNat = 256 := by decide

theorem test_witness_EncryptWritesTheFrame :
    let s := { keyedBase with len := 16 }
    s.keyed = true ∧ 16 ≤ s.len.toNat ∧ Memory.wf s.dout = true := by decide

theorem test_witness_DecryptWritesTheFrame :
    let s := { keyedBase with len := 255, dout := [(255, 1)] }
    s.keyed = true ∧ 16 ≤ s.len.toNat ∧ Memory.wf s.dout = true := by decide

theorem test_witness_CipherRefusals :
    base.keyed = false ∧ { keyedBase with len := 15 }.keyed = true ∧ { keyedBase with len := 15 }.len.toNat < 16 := by
  decide

/-- The last field of a 20-byte frame, for each clause. -/
theorem test_witness_GetbwExtractsTheField :
    (1 ∈ [1, 2, 3, 4, 5, 6, 7, 8, 16, 32] ∧ 159 + 1 ≤ 8 * base.len.toNat) ∧
    (32 ∈ [1, 2, 3, 4, 5, 6, 7, 8, 16, 32] ∧ 128 + 32 ≤ 8 * base.len.toNat ∧ 8 < 32) := by decide

theorem test_witness_GetbwRefusals :
    (0 = 0 ∨ 32 < 0) ∧ (33 = 0 ∨ 32 < 33) ∧ ((9 ≤ 9 ∧ 9 ≤ 15) ∨ (17 ≤ 9 ∧ 9 ≤ 31)) ∧
    ((9 ≤ 31 ∧ 31 ≤ 15) ∨ (17 ≤ 31 ∧ 31 ≤ 31)) ∧
    (1 ∈ [1, 2, 3, 4, 5, 6, 7, 8, 16, 32] ∧ 8 * base.len.toNat < 160 + 1) := by decide

theorem test_witness_GetbwResultIsBounded :
    ∃ t, exec (.getbw .din 0 32 false) readerBase = .next t ∧ t.err = .ok := ⟨_, rfl, by decide +kernel⟩

theorem test_witness_LittleEndianIgnoredForBytes : 8 ≤ 8 := by decide

theorem test_witness_FailuresArePrecise : ∃ t, exec .derive keyedBase = .next t ∧ t.err ≠ .ok := ⟨_, rfl, by decide⟩

theorem test_witness_CommandsKeepTheirOperands : ∃ t, exec .derive base = .next t := ⟨_, rfl⟩

theorem test_witness_CommandsIgnoreCollideAndErr : ∃ t, exec .clear keyedBase = .next t := ⟨_, rfl⟩

/-- Two states that differ outside what the cipher reads. -/
theorem test_witness_CipherIsStateless :
    let s := keyedBase
    let s' := { keyedBase with collide := true, dout := [(3, 7)], din := [(20, 1)] }
    s.keyed = s'.keyed ∧ s.skey = s'.skey ∧ s.siv = s'.siv ∧ s.len = s'.len ∧
    (∀ j < s.len.toNat, Memory.read s.din j = Memory.read s'.din j) ∧
    Memory.wf s.dout = true ∧ Memory.wf s'.dout = true ∧
    ∃ t t', exec .encrypt s = .next t ∧ exec .encrypt s' = .next t' ∧ t.err = .ok :=
  ⟨rfl, rfl, rfl, rfl, by decide, rfl, rfl, _, _, rfl, rfl, rfl⟩

theorem test_witness_MiddleStaysPlaintext :
    16 ≤ (List.replicate 33 0#8).length ∧ 16 ≤ 16 ∧ 16 + 16 < (List.replicate 33 0#8).length := by decide

theorem test_witness_TrailingBlockAfterLeading : 16 ≤ (List.replicate 16 0#8).length := by decide

/-- A cipher whose two directions undo each other, and the shortest frame. -/
theorem test_witness_FrameRoundTrip :
    let c : BlockCipher := ⟨Block.xor, Block.xor⟩
    (∀ K X, c.D K (c.E K X) = X) ∧ (∀ K X, c.E K (c.D K X) = X) ∧ 16 ≤ (List.replicate 16 0#8).length := by
  have h : ∀ K X : Block, K.xor (K.xor X) = X := by
    intro K X
    cases K
    cases X
    simp [Block.xor, Quad.xor]
  exact ⟨h, h, by decide⟩

theorem test_witness_EncryptThenDecryptRestores :
    ∃ (t u : State) (copy : Memory), keyedBase.keyed = true ∧ 16 ≤ keyedBase.len.toNat ∧
      Memory.wf keyedBase.dout = true ∧ exec .encrypt keyedBase = .next t ∧
      (∀ j < keyedBase.len.toNat, Memory.read copy j = Memory.read t.dout j) ∧
      exec .decrypt { t with din := copy } = .next u :=
  ⟨_, _, _, rfl, by decide, rfl, rfl, fun _ _ => rfl, rfl⟩

theorem test_witness_SboxIsTheFormula : 0#8 = 0#8 ∧ 0x53#8 ≠ 0#8 ∧ sbox 0x53#8 = 0xED#8 := by decide

theorem test_witness_KeyScheduleWords : 4 ≤ 4 ∧ 4 ≤ 43 ∧ 43 < 44 := by decide

theorem test_witness_LaunchTakesEveryWord : base.busy = false := by decide

theorem test_witness_BusyWritesAreDropped :
    flying.busy = true ∧
    [0x008#12, 0x010#12, 0x020#12, 0x044#12, 0x100#12, 0x1FC#12].all (fun off => decide (operandOffset off)) =
      true := by decide

theorem test_witness_CollideRecordsDroppedWrites :
    (∃ t, step { flying with inputs := [.host ⟨0x1FC#12, 4, .write 0#32⟩] } = .next t ∧
      State.nextAccess { flying with inputs := [.host ⟨0x1FC#12, 4, .write 0#32⟩] } =
        some ⟨0x1FC#12, 4, .write 0#32⟩ ∧ flying.busy = true ∧ operandOffset 0x1FC#12 ∧
      flying.collide = false ∧ t.collide = true) ∧
    (∃ t, step { base with collide := true, inputs := [.host ⟨0x00C#12, 4, .write 8#32⟩] } = .next t ∧
      t.collide = false) ∧
    ∃ t, step { base with collide := true, inputs := [.assertReset] } = .next t ∧ t.collide = false :=
  ⟨⟨_, rfl, rfl, rfl, by decide, rfl, by decide⟩, ⟨_, rfl, by decide⟩, _, rfl, rfl⟩

/-- An access for each clause: another size, unaligned, the holes of the map at their ends. -/
theorem test_witness_BusErrorsChangeNothing :
    ∀ a ∈ ([⟨0x000#12, 1, .read⟩, ⟨0x002#12, 4, .read⟩, ⟨0x01C#12, 4, .read⟩, ⟨0x048#12, 4, .read⟩,
        ⟨0x04C#12, 4, .read⟩, ⟨0x070#12, 4, .read⟩, ⟨0x0FC#12, 4, .read⟩, ⟨0x300#12, 4, .read⟩,
        ⟨0xFFC#12, 4, .read⟩] : List HostAccess),
      a.size ≠ 4 ∨ a.off.toNat % 4 ≠ 0 ∨ a.off = 0x01C#12 ∨ a.off = 0x048#12 ∨ a.off = 0x04C#12 ∨
        (0x070 ≤ a.off.toNat ∧ a.off.toNat ≤ 0x0FC) ∨ 0x300 ≤ a.off.toNat := by decide +kernel

theorem test_witness_IdleReadsReturnResults : base.busy = false ∧ 3 < 4 ∧ 63 < 64 := by decide

theorem test_witness_BusyReadsAreUnspecified :
    flying.busy = true ∧
    [0x014#12, 0x018#12, 0x050#12, 0x06C#12, 0x200#12, 0x2FC#12].all (fun off : Offset =>
      decide (off.toNat % 4 = 0 ∧ (off = 0x014#12 ∨ off = 0x018#12 ∨
        (0x050 ≤ off.toNat ∧ off.toNat ≤ 0x06C) ∨ (0x200 ≤ off.toNat ∧ off.toNat ≤ 0x2FC)))) = true := by decide

theorem test_witness_OperandWritesLandInTheirLanes :
    base.busy = false ∧ Memory.wf base.din = true ∧ 3 < 4 ∧ 63 < 64 := by decide

theorem test_witness_ReadOnlyAndReservedBitsIgnoreWrites :
    [0x000#12, 0x014#12, 0x018#12, 0x050#12, 0x06C#12, 0x200#12, 0x2FC#12].all (fun off : Offset =>
      decide (off.toNat % 4 = 0 ∧ (off = 0x000#12 ∨ off = 0x014#12 ∨ off = 0x018#12 ∨
        (0x050 ≤ off.toNat ∧ off.toNat ≤ 0x06C) ∨ (0x200 ≤ off.toNat ∧ off.toNat ≤ 0x2FC)))) = true := by decide

theorem test_witness_WritesAreIdempotent : Memory.wf base.din = true ∧ 0x100#12 ≠ 0x008#12 := by decide

theorem test_witness_WordsAndFieldsOfTheSameBytes : 63 < 64 ∧ base.busy = false := by decide

theorem test_witness_InterruptFollowsCompletion :
    (∃ t, exec .nop base = .next t) ∧ { base with done := true }.done = true ∧ base.busy = false :=
  ⟨⟨_, rfl⟩, rfl, rfl⟩

theorem test_witness_NoHostStepsDuringReset : { base with resetLine := true }.resetLine = true := by decide

theorem test_witness_StepKeepsTheInvariant :
    ∃ t, State.Inv { flying with cmdLatch := 1#32 } ∧ step { flying with cmdLatch := 1#32 } = .next t :=
  ⟨_, by decide, rfl⟩

/-- KEYED set by DERIVE, cleared by CLEAR, cleared by reset. -/
theorem test_witness_KeyedChangesOnlyByDeriveClearReset :
    (∃ t, step { flying with cmdLatch := 1#32 } = .next t ∧ flying.keyed = false ∧ t.keyed = true) ∧
    (∃ t, step { keyedBase with busy := true, cmdLatch := 5#32 } = .next t ∧ t.keyed = false) ∧
    ∃ t, step { keyedBase with inputs := [.assertReset] } = .next t ∧ t.keyed = false :=
  ⟨⟨_, rfl, rfl, rfl⟩, ⟨_, rfl, rfl⟩, _, rfl, rfl⟩

theorem test_witness_SessionChangesOnlyByDeriveClearReset :
    (∃ t, step { keyedBase with busy := true, cmdLatch := 5#32 } = .next t ∧
      (t.skey ≠ keyedBase.skey ∨ t.siv ≠ keyedBase.siv)) ∧
    ∃ t, step { keyedBase with inputs := [.assertReset] } = .next t ∧ t.skey ≠ keyedBase.skey :=
  ⟨⟨_, rfl, .inl (by decide +kernel)⟩, _, rfl, by decide +kernel⟩

/-- DOUT's last byte of a 20-byte frame written by ENCRYPT, and cleared by reset. -/
theorem test_witness_OutputChangesOnlyByCipherOrReset :
    (∃ t, Memory.wf keyedBase.dout = true ∧ step { keyedBase with busy := true, cmdLatch := 2#32 } = .next t ∧
      Memory.read t.dout 19 ≠ Memory.read keyedBase.dout 19) ∧
    ∃ t, step { keyedBase with dout := [(255, 1)], inputs := [.assertReset] } = .next t ∧
      Memory.read t.dout 255 ≠ Memory.read [(255, 1)] 255 :=
  ⟨⟨_, rfl, rfl, by decide +kernel⟩, _, rfl, by decide⟩

theorem test_witness_OperandsStableInFlight :
    ∃ t, step { flying with inputs := [.host ⟨0x010#12, 4, .write 9#32⟩] } = .next t ∧ t.busy = true :=
  ⟨_, rfl, rfl⟩

/-- Two host writes, one of them dropped, before the engine's turn. -/
theorem test_witness_CommandUsesItsLaunchOperands :
    ∃ (s u : State) (hs : List HostAccess), s.busy = true ∧ s.resetLine = false ∧
      decode s.cmdLatch = .ok .derive ∧ s.inputs = hs.map Input.host ++ .engine :: [.assertReset] ∧
      exec .derive s = .next u := by
  refine ⟨{ flying with cmdLatch := 1#32, inputs := [.host ⟨0x010#12, 4, .write 9#32⟩,
    .host ⟨0x004#12, 4, .write 1#32⟩, .engine, .assertReset] }, _,
    [⟨0x010#12, 4, .write 9#32⟩, ⟨0x004#12, 4, .write 1#32⟩], rfl, rfl, rfl, rfl, exec_eq_complete _ _⟩

theorem test_witness_LaunchedCommandCompletes :
    let s := { flying with inputs := [.host ⟨0x000#12, 4, .read⟩] }
    s.busy = true ∧ s.resetLine = false ∧ ∀ x ∈ s.inputs, x.isHostAccess = true ∨ x = .engine := by decide

end Sys2Proof.Machine.Tests
end

/-! ## The state and its invariant (10_state.md)

First the rules that several statements share: what a STATUS write does, which word a decoded command
stands in, what a successful command leaves, what an engine turn and a step can do, and which outputs of
the engine a host access leaves alone. Then the statements. -/

namespace Sys2Proof

/-! ### The word of a decoded command -/

theorem decodeFormatN_ok {w : Word} {i j : Instr} (h : decodeFormatN w i = .ok j) :
    j = i ∧ w.toNat / 16 = 0 := by
  rw [decodeFormatN_eq] at h
  split at h
  · next hz => exact ⟨(Except.ok.inj h).symm, hz⟩
  · cases h

theorem decodeFormatB_ok {w : Word} {j : Instr} (h : decodeFormatB w = .ok j) :
    ∃ src start n le, j = .getbw src start n le := by
  rw [decodeFormatB_eq] at h
  split at h
  · exact ⟨_, _, _, _, (Except.ok.inj h).symm⟩
  · cases h

/-- A format N word is its OP field (30_encoding.md R81). -/
theorem eq_ofNat_of_opField {w : Word} {n : Nat} (hop : (opField w).toNat = n) (hup : w.toNat / 16 = 0) :
    w = BitVec.ofNat 32 n := by
  rw [opField_toNat] at hop
  apply BitVec.eq_of_toNat_eq
  rw [BitVec.toNat_ofNat]
  omega

/-- A word that decodes to a command other than GETBW is that command's word (30_encoding.md R82). -/
theorem eq_encode_of_decode {w : Word} {i : Instr} (h : decode w = .ok i)
    (hi : ∀ src start n le, i ≠ .getbw src start n le) : w = encode i := by
  unfold decode at h
  split at h
  case h_5 =>
    obtain ⟨src, start, n, le, rfl⟩ := decodeFormatB_ok h
    exact absurd rfl (hi src start n le)
  case h_7 => cases h
  all_goals
    next hop =>
      obtain ⟨rfl, hup⟩ := decodeFormatN_ok h
      exact eq_ofNat_of_opField hop hup

end Sys2Proof

namespace Sys2Proof.Machine

/-! ### STATUS writes -/

/-- A STATUS write clears DONE by bit 1 and COLLIDE by bit 3 (10_state.md R24). -/
theorem State.writeStatus_eq (s : State) (v : Word) :
    s.writeStatus v = { s with done := s.done && !v.getLsbD 1, collide := s.collide && !v.getLsbD 3 } := by
  unfold State.writeStatus State.acknowledge
  cases v.getLsbD 1 <;> cases v.getLsbD 3 <;> simp

/-! ### What a successful command leaves -/

/-- A successful ENCRYPT or DECRYPT stores one frame of LEN bytes in DOUT: its frame function keeps the
length (43_frame_cipher.md R167). -/
theorem frameResult_ok_cases {s p : State} {f : Block → Block → List Byte → List Byte}
    (hf : ∀ K IV x, 16 ≤ x.length → (f K IV x).length = x.length) (h : frameResult s f = .ok p) :
    ∃ bs, bs.length = s.frameLen ∧ p = { s with dout := Memory.writeBytes s.dout 0 bs } := by
  rcases frameResult_cases s f with ⟨_, he⟩ | ⟨_, _, he⟩ | ⟨_, hl, he⟩
  · rw [he] at h; cases h
  · rw [he] at h; cases h
  · rw [he] at h
    refine ⟨_, ?_, (Except.ok.inj h).symm⟩
    rw [hf _ _ _ (by simpa using hl), length_inputFrame]

/-- Everything a command's pending writes can be when it succeeds. -/
theorem commandResult_ok_cases {i : Instr} {s p : State} (h : commandResult i s = .ok p) :
    (i = .nop ∧ p = s) ∨
    (i = .derive ∧
      p = { s with skey := deriveBlock s.mkey s.salt, siv := deriveBlock s.miv s.salt, keyed := true }) ∨
    ((i = .encrypt ∨ i = .decrypt) ∧
      ∃ bs, bs.length = s.frameLen ∧ p = { s with dout := Memory.writeBytes s.dout 0 bs }) ∨
    ((∃ src start n le, i = .getbw src start n le) ∧ ∃ r, p = { s with resultLo := r, resultHi := 0#32 }) ∨
    (i = .clear ∧ p = { s with skey := .zero, siv := .zero, keyed := false }) := by
  cases i with
  | nop => exact .inl ⟨rfl, (Except.ok.inj h).symm⟩
  | derive =>
    rw [commandResult] at h
    cases hk : s.keyed with
    | true => rw [deriveResult_error hk] at h; cases h
    | false => rw [deriveResult_ok hk] at h; exact .inr (.inl ⟨rfl, (Except.ok.inj h).symm⟩)
  | encrypt =>
    exact .inr (.inr (.inl ⟨.inl rfl, frameResult_ok_cases (length_frameEnc Config.blockCipher) h⟩))
  | decrypt =>
    exact .inr (.inr (.inl ⟨.inr rfl, frameResult_ok_cases (length_frameDec Config.blockCipher) h⟩))
  | getbw src start n le =>
    rw [commandResult] at h
    rcases getbwResult_cases s src start n le with ⟨_, he⟩ | ⟨_, he⟩ | ⟨_, _, he⟩ | ⟨_, _, he⟩ <;>
      rw [he] at h
    case inr.inr.inr =>
      exact .inr (.inr (.inr (.inl ⟨⟨src, start, n, le, rfl⟩, _, (Except.ok.inj h).symm⟩)))
    all_goals cases h
  | clear => exact .inr (.inr (.inr (.inr ⟨rfl, (Except.ok.inj h).symm⟩)))

/-! ### What an engine turn and a step can do -/

/-- The state with its next input taken away: what a step's action works on. -/
abbrev State.taken (s : State) : State := { s with inputs := s.inputs.tail }

/-- Everything the engine's turn can do, by its result: nothing while idle, a completion with an error, or
a completion with a successful command's pending writes. -/
theorem engineTurn_next_cases {s t : State} (h : engineTurn s = .next t) :
    (s.busy = false ∧ t = s) ∨
    (∃ c, s.busy = true ∧ t = s.complete (.error c)) ∨
    (∃ i p, s.busy = true ∧ decode s.cmdLatch = .ok i ∧ commandResult i s = .ok p ∧
      t = s.complete (.ok p)) := by
  rcases engineTurn_cases s with ⟨hb, he⟩ | ⟨i, hb, hd, he⟩ | ⟨e, hb, _, he⟩ <;> rw [he] at h <;> cases h
  · exact .inl ⟨hb, rfl⟩
  · cases hr : commandResult i s with
    | error c => exact .inr (.inl ⟨c, hb, rfl⟩)
    | ok p => exact .inr (.inr ⟨i, p, hb, hd, hr, rfl⟩)
  · exact .inr (.inl ⟨_, hb, rfl⟩)

/-- Everything a step can do, a host access named by `State.nextAccess`. -/
theorem step_cases_nextAccess {s t : State} (h : step s = .next t) :
    (s.engineIsNext = true ∧ engineTurn s.taken = .next t) ∨
    (∃ a, s.nextAccess = some a ∧ s.resetLine = false ∧ t = s.taken.hostAccess a) ∨
    (s.inputs.head? = some .assertReset ∧ t = s.taken.assertReset) ∨
    (s.inputs.head? = some .releaseReset ∧ t = s.taken.releaseReset) := by
  cases hi : s.inputs with
  | nil =>
    have hn : s.engineIsNext = true := by simp [State.engineIsNext, hi]
    rw [step_engine hn] at h
    exact .inl ⟨hn, h⟩
  | cons x rest =>
    have hu : s.taken = { s with inputs := rest } := by simp [State.taken, hi]
    rw [step_cons hi, ← hu] at h
    rcases takeInput_cases h with ⟨a, hx, hr, ht⟩ | ⟨rfl, he⟩ | ⟨rfl, ht⟩ | ⟨rfl, ht⟩
    · refine .inr (.inl ⟨a, ?_, hr, ht⟩)
      rcases hx with rfl | ⟨addr, rfl, ho⟩
      · simp [State.nextAccess, hi]
      · simp [State.nextAccess, hi, ho]
    · exact .inl ⟨by simp [State.engineIsNext, hi], he⟩
    · exact .inr (.inr (.inl ⟨rfl, ht⟩))
    · exact .inr (.inr (.inr ⟨rfl, ht⟩))

/-! ### KEYED, the session and DOUT -/

/-- `t` holds the KEYED, SKEY, SIV and DOUT of `s`. -/
structure State.SameOutputs (s t : State) : Prop where
  keyed : t.keyed = s.keyed
  skey : t.skey = s.skey
  siv : t.siv = s.siv
  dout : t.dout = s.dout

/-- No host write reaches a register the engine alone writes (20_memory.md R59). -/
theorem sameOutputs_writeTarget (s : State) (v : Word) (t : Target) :
    s.SameOutputs (s.writeTarget v t) := by
  cases t with
  | status => rw [State.writeTarget, State.writeStatus_eq]; exact ⟨rfl, rfl, rfl, rfl⟩
  | _ => exact ⟨rfl, rfl, rfl, rfl⟩

theorem sameOutputs_hostAccess (s : State) (a : HostAccess) : s.SameOutputs (s.hostAccess a) := by
  rcases hostAccess_cases s a with ⟨_, he⟩ | ⟨_, _, _, _, _, he⟩ | ⟨_, _, _, _, he⟩ |
    ⟨_, _, _, _, _, _, he⟩ | ⟨t, v, _, _, _, he⟩ <;> rw [he]
  case inr.inr.inr.inr =>
    have hw := sameOutputs_writeTarget s v t
    exact ⟨hw.keyed, hw.skey, hw.siv, hw.dout⟩
  all_goals exact ⟨rfl, rfl, rfl, rfl⟩

/-- Everything a step can do to KEYED, the session and DOUT: nothing, reset, or the success of DERIVE, of
ENCRYPT or DECRYPT, or of CLEAR. -/
theorem step_outputs_cases {s t : State} (h : step s = .next t) :
    s.SameOutputs t ∨ (s.inputs.head? = some .assertReset ∧ t.keyed = false) ∨
    (s.atCompletionOf 0x00000001#32 ∧ t.err = .ok ∧ t.keyed = true ∧ t.dout = s.dout) ∨
    ((s.atCompletionOf 0x00000002#32 ∨ s.atCompletionOf 0x00000003#32) ∧ t.err = .ok ∧
      t.keyed = s.keyed ∧ t.skey = s.skey ∧ t.siv = s.siv ∧
      ∃ bs, bs.length = s.len.toNat ∧ t.dout = Memory.writeBytes s.dout 0 bs) ∨
    (s.atCompletionOf 0x00000005#32 ∧ t.err = .ok ∧ t.keyed = false ∧ t.dout = s.dout) := by
  rcases step_cases_nextAccess h with ⟨hn, he⟩ | ⟨a, _, _, rfl⟩ | ⟨hr, rfl⟩ | ⟨_, rfl⟩
  · rcases engineTurn_next_cases he with ⟨_, rfl⟩ | ⟨c, _, rfl⟩ | ⟨i, p, hb, hd, hp, rfl⟩
    · exact .inl ⟨rfl, rfl, rfl, rfl⟩
    · exact .inl ⟨rfl, rfl, rfl, rfl⟩
    · rcases commandResult_ok_cases hp with
        ⟨_, rfl⟩ | ⟨rfl, rfl⟩ | ⟨hi, bs, hl, rfl⟩ | ⟨_, _, rfl⟩ | ⟨rfl, rfl⟩
      · exact .inl ⟨rfl, rfl, rfl, rfl⟩
      · exact .inr (.inr (.inl ⟨⟨hb, hn, eq_encode_of_decode hd nofun⟩, rfl, rfl, rfl⟩))
      · refine .inr (.inr (.inr (.inl ⟨?_, rfl, rfl, rfl, rfl, bs, hl, rfl⟩)))
        rcases hi with rfl | rfl
        · exact .inl ⟨hb, hn, eq_encode_of_decode hd nofun⟩
        · exact .inr ⟨hb, hn, eq_encode_of_decode hd nofun⟩
      · exact .inl ⟨rfl, rfl, rfl, rfl⟩
      · exact .inr (.inr (.inr (.inr ⟨⟨hb, hn, eq_encode_of_decode hd nofun⟩, rfl, rfl, rfl⟩)))
  · have ho := sameOutputs_hostAccess s.taken a
    exact .inl ⟨ho.keyed, ho.skey, ho.siv, ho.dout⟩
  · exact .inr (.inl ⟨hr, rfl⟩)
  · exact .inl ⟨rfl, rfl, rfl, rfl⟩

/-! ### The invariant -/

theorem inv_reset : State.reset.Inv := by simp [State.Inv, State.reset]

/-- Storing a frame in DOUT keeps it canonical and inside its 256 bytes (10_state.md R30, R38). -/
theorem wf_inBuffer_writeFrame {m : Memory} (hw : Memory.wf m = true) (hb : Memory.inBuffer m = true)
    {bs : List Byte} {n : BitVec 8} (hl : bs.length = n.toNat) :
    Memory.wf (Memory.writeBytes m 0 bs) = true ∧ Memory.inBuffer (Memory.writeBytes m 0 bs) = true := by
  have hn := n.isLt
  have hfit : 0 + bs.length ≤ Config.bufBytes := by simp only [Config.bufBytes]; omega
  exact ⟨Memory.wf_writeBytes hw 0 bs, Memory.inBuffer_writeBytes hb 0 bs hfit⟩

/-- A host write of a word of DIN keeps it inside its 256 bytes (20_memory.md R53). -/
theorem Memory.inBuffer_setWord {d : Memory} (h : Memory.inBuffer d = true) {k : Nat} (hk : k < 64)
    (v : Word) : Memory.inBuffer (Memory.setWord d k v) = true := by
  have hfit : 4 * k + 4 ≤ Config.bufBytes := by simp only [Config.bufBytes]; omega
  exact Memory.inBuffer_writeBytes h _ _ hfit

/-- A successful command's pending writes keep the invariant: DOUT stays canonical and in its bounds,
RESULT_HI is written only with 0, and CLEAR zeroes the session with KEYED. -/
theorem inv_of_commandResult {i : Instr} {s p : State} (hs : s.Inv) (h : commandResult i s = .ok p) :
    p.Inv := by
  obtain ⟨hdw, hdb, how, hob, hres, hdone, hkey, hrst⟩ := hs
  rcases commandResult_ok_cases h with ⟨_, rfl⟩ | ⟨_, rfl⟩ | ⟨_, bs, hl, rfl⟩ | ⟨_, r, rfl⟩ | ⟨_, rfl⟩
  · exact ⟨hdw, hdb, how, hob, hres, hdone, hkey, hrst⟩
  · exact ⟨hdw, hdb, how, hob, hres, hdone, nofun, hrst⟩
  · obtain ⟨how', hob'⟩ := wf_inBuffer_writeFrame how hob hl
    exact ⟨hdw, hdb, how', hob', hres, hdone, hkey, hrst⟩
  · exact ⟨hdw, hdb, how, hob, rfl, hdone, hkey, hrst⟩
  · exact ⟨hdw, hdb, how, hob, hres, hdone, fun _ => ⟨rfl, rfl⟩, hrst⟩

/-- A completion ends with BUSY = 0, which settles the clauses about a command in flight. -/
theorem inv_complete_ok {s p : State} (hp : p.Inv) : (s.complete (.ok p)).Inv := by
  obtain ⟨hdw, hdb, how, hob, hres, _, hkey, _⟩ := hp
  exact ⟨hdw, hdb, how, hob, hres, nofun, hkey, fun _ => rfl⟩

theorem inv_complete_error {s : State} (hs : s.Inv) (c : ErrorCode) : (s.complete (.error c)).Inv := by
  obtain ⟨hdw, hdb, how, hob, hres, _, hkey, _⟩ := hs
  exact ⟨hdw, hdb, how, hob, hres, nofun, hkey, fun _ => rfl⟩

theorem inv_engineTurn {s t : State} (hs : s.Inv) (h : engineTurn s = .next t) : t.Inv := by
  rcases engineTurn_next_cases h with ⟨_, rfl⟩ | ⟨c, _, rfl⟩ | ⟨i, p, _, _, hp, rfl⟩
  · exact hs
  · exact inv_complete_error hs c
  · exact inv_complete_ok (inv_of_commandResult hs hp)

/-- An accepted write keeps the invariant while reset is released: a launch clears DONE
(40_command_cycle.md R101), DIN keeps its form, and STATUS only clears bits. -/
theorem inv_writeTarget {s : State} (hs : s.Inv) (hr : s.resetLine = false) (v : Word) {t : Target}
    (ht : t.inRange) : (s.writeTarget v t).Inv := by
  obtain ⟨hdw, hdb, how, hob, hres, hdone, hkey, hrst⟩ := hs
  cases t with
  | cmd => exact ⟨hdw, hdb, how, hob, hres, fun _ => rfl, hkey, by simp [State.writeTarget, hr]⟩
  | status =>
    rw [State.writeTarget, State.writeStatus_eq]
    exact ⟨hdw, hdb, how, hob, hres, fun hb => by simp [hdone hb], hkey, hrst⟩
  | din k =>
    exact ⟨Memory.wf_setWord hdw k v, Memory.inBuffer_setWord hdb ht v, how, hob, hres, hdone, hkey, hrst⟩
  | _ => exact ⟨hdw, hdb, how, hob, hres, hdone, hkey, hrst⟩

theorem inv_hostAccess {s : State} (hs : s.Inv) (hr : s.resetLine = false) (a : HostAccess) :
    (s.hostAccess a).Inv := by
  rcases hostAccess_cases s a with ⟨_, he⟩ | ⟨_, _, _, _, _, he⟩ | ⟨_, _, _, _, he⟩ |
    ⟨_, _, _, _, _, _, he⟩ | ⟨t, v, ht, _, _, he⟩ <;> rw [he]
  case inr.inr.inr.inr => exact inv_writeTarget hs hr v (HostAccess.target_inRange ht)
  all_goals exact hs

theorem inv_releaseReset {s : State} (hs : s.Inv) : s.releaseReset.Inv := by
  obtain ⟨hdw, hdb, how, hob, hres, hdone, hkey, _⟩ := hs
  exact ⟨hdw, hdb, how, hob, hres, hdone, hkey, nofun⟩

theorem inv_assertReset (s : State) : s.assertReset.Inv := by simp [State.Inv]

/-- Settles O54: the engine's turn, a host access and both edges of reset each keep the invariant. -/
theorem stepKeepsTheInvariant : Obligations.StepKeepsTheInvariant := by
  unfold Obligations.StepKeepsTheInvariant
  intro s t hs h
  have hu : s.taken.Inv := hs
  rcases step_cases_nextAccess h with ⟨_, he⟩ | ⟨a, _, hr, rfl⟩ | ⟨_, rfl⟩ | ⟨_, rfl⟩
  · exact inv_engineTurn hu he
  · exact inv_hostAccess hu hr a
  · exact inv_assertReset s.taken
  · exact inv_releaseReset hu

/-- Settles O53. -/
theorem resetIsSound : Obligations.ResetIsSound := inv_reset

/-! ### KEYED, the session and DOUT: the statements -/

/-- Settles O55, by what a step can do to KEYED. -/
theorem keyedChangesOnlyByDeriveClearReset : Obligations.KeyedChangesOnlyByDeriveClearReset := by
  unfold Obligations.KeyedChangesOnlyByDeriveClearReset
  intro s t h
  rcases step_outputs_cases h with
    hsame | ⟨hreset, hk⟩ | ⟨hat, herr, hk, _⟩ | ⟨_, _, hk, _⟩ | ⟨hat, herr, hk, _⟩
  · have hk := hsame.keyed
    exact ⟨fun h0 h1 => by simp [hk, h0] at h1, fun h1 h0 => by simp [hk, h1] at h0⟩
  · exact ⟨fun _ h1 => by simp [hk] at h1, fun _ _ => .inr hreset⟩
  · exact ⟨fun _ _ => ⟨hat, herr⟩, fun _ h0 => by simp [hk] at h0⟩
  · exact ⟨fun h0 h1 => by simp [hk, h0] at h1, fun h1 h0 => by simp [hk, h1] at h0⟩
  · exact ⟨fun _ h1 => by simp [hk] at h1, fun _ _ => .inl ⟨hat, herr⟩⟩

/-- Settles O56, by what a step can do to the session. -/
theorem sessionChangesOnlyByDeriveClearReset : Obligations.SessionChangesOnlyByDeriveClearReset := by
  unfold Obligations.SessionChangesOnlyByDeriveClearReset
  intro s t h hne
  have unchanged : ¬ (t.skey = s.skey ∧ t.siv = s.siv) := fun ⟨hk, hv⟩ => hne.elim (· hk) (· hv)
  rcases step_outputs_cases h with
    hsame | ⟨hreset, _⟩ | ⟨hat, herr, _⟩ | ⟨_, _, _, hk, hv, _⟩ | ⟨hat, herr, _⟩
  · exact absurd ⟨hsame.skey, hsame.siv⟩ unchanged
  · exact .inr hreset
  · exact .inl ⟨.inl hat, herr⟩
  · exact absurd ⟨hk, hv⟩ unchanged
  · exact .inl ⟨.inr hat, herr⟩

/-- Storing `n` bytes from index 0 on leaves every byte from `n` on as it was. -/
theorem lt_length_of_read_writeBytes_ne {m : Memory} (hm : Memory.wf m = true) {bs : List Byte} {a : Nat}
    (h : Memory.read (Memory.writeBytes m 0 bs) a ≠ Memory.read m a) : a < bs.length := by
  by_contra hlt
  rw [Memory.read_writeBytes hm, if_neg (by omega)] at h
  exact h rfl

/-- Settles O57, by what a step can do to DOUT: only the store of a frame of LEN bytes and reset change it. -/
theorem outputChangesOnlyByCipherOrReset : Obligations.OutputChangesOnlyByCipherOrReset := by
  unfold Obligations.OutputChangesOnlyByCipherOrReset
  intro s t a hwf h hne
  rcases step_outputs_cases h with
    hsame | ⟨hreset, _⟩ | ⟨_, _, _, hd⟩ | ⟨hat, herr, _, _, _, bs, hl, hd⟩ | ⟨_, _, _, hd⟩
  · exact absurd (by rw [hsame.dout]) hne
  · exact .inr hreset
  · exact absurd (by rw [hd]) hne
  · rw [hd] at hne
    exact .inl ⟨hat, herr, hl ▸ lt_length_of_read_writeBytes_ne hwf hne⟩
  · exact absurd (by rw [hd]) hne

/-! ### COLLIDE -/

/-- The rows of the address map that hold guarded registers: CMD, LEN, MKEY to SALT, DIN (20_memory.md R53,
R60). -/
theorem guarded_rows : ∀ row ∈ addressMap, ∀ k, (row.target k).guarded = true →
    (row.first = 0x008 ∧ row.last = 0x008) ∨ (row.first = 0x010 ∧ row.last = 0x010) ∨
    (0x020 ≤ row.first ∧ row.last ≤ 0x044) ∨ (0x100 ≤ row.first ∧ row.last ≤ 0x1FC) := by
  simp [addressMap, Target.guarded]

/-- The row of the address map that holds STATUS (20_memory.md R53). -/
theorem status_row : ∀ row ∈ addressMap, ∀ k, row.target k = .status →
    row.first = 0x00C ∧ row.last = 0x00C := by
  simp [addressMap]

theorem offset_eq_ofNat {off : Offset} {n : Nat} (h : off.toNat = n) : off = BitVec.ofNat 12 n := by
  rw [← h, BitVec.ofNat_toNat, BitVec.setWidth_eq]

/-- A guarded register is mapped at an operand offset (20_memory.md R53, R60). -/
theorem operandOffset_of_guarded {off : Offset} (ha : off.toNat % 4 = 0) {t : Target}
    (hm : mapOffset off.toNat = some t) (hg : t.guarded = true) : operandOffset off := by
  obtain ⟨row, hrow, hfirst, hlast, rfl⟩ := mapRows_some hm
  refine ⟨ha, ?_⟩
  rcases guarded_rows row hrow _ hg with hr | hr | hr | hr
  · exact .inl (offset_eq_ofNat (by omega))
  · exact .inr (.inl (offset_eq_ofNat (by omega)))
  · exact .inr (.inr (.inl (by omega)))
  · exact .inr (.inr (.inr (by omega)))

/-- STATUS is at 0x00C alone (20_memory.md R53). -/
theorem eq_of_mapOffset_status {off : Offset} (hm : mapOffset off.toNat = some .status) : off = 0x00C#12 := by
  obtain ⟨row, hrow, hfirst, hlast, ht⟩ := mapRows_some hm
  obtain ⟨h1, h2⟩ := status_row row hrow _ ht.symm
  exact offset_eq_ofNat (by omega)

/-- The map's words from MKEY to SALT, and those of DIN, are guarded (20_memory.md R53, R60). -/
theorem mapOffset_mkey_to_salt_guarded :
    ∀ k < 10, (mapOffset (0x020 + 4 * k)).any Target.guarded = true := by decide

theorem mapOffset_din_guarded : ∀ k < 64, (mapOffset (0x100 + 4 * k)).any Target.guarded = true := by
  decide

/-- An operand offset is mapped to a guarded register (20_memory.md R53, R60). -/
theorem mapOffset_guarded_of_operandOffset {off : Offset} (h : operandOffset off) :
    ∃ t, mapOffset off.toNat = some t ∧ t.guarded = true := by
  rw [← Option.any_eq_true]
  obtain ⟨ha, rfl | rfl | hr | hr⟩ := h
  · rfl
  · rfl
  · rw [show off.toNat = 0x020 + 4 * ((off.toNat - 0x020) / 4) by omega]
    exact mapOffset_mkey_to_salt_guarded _ (by omega)
  · rw [show off.toNat = 0x100 + 4 * ((off.toNat - 0x100) / 4) by omega]
    exact mapOffset_din_guarded _ (by omega)

/-- An access that reaches a register is a 32-bit one at an aligned, mapped offset (20_memory.md R54). -/
theorem HostAccess.of_target {a : HostAccess} {t : Target} (h : a.target = some t) :
    a.size = 4 ∧ a.off.toNat % 4 = 0 ∧ mapOffset a.off.toNat = some t := by
  unfold HostAccess.target at h
  split at h
  · next hal =>
    obtain ⟨hsize, hoff⟩ : a.size = 4 ∧ a.off.toNat % 4 = 0 := by simpa [HostAccess.aligned] using hal
    exact ⟨hsize, hoff, h⟩
  · cases h

/-- A write to an operand register while a command is in flight is dropped (20_memory.md R60). -/
theorem hostAccess_operand_busy {s : State} (hb : s.busy = true) {off : Offset} (ho : operandOffset off)
    (v : Word) : s.hostAccess ⟨off, 4, .write v⟩ = s.drop.respond .written := by
  obtain ⟨t, hm, hg⟩ := mapOffset_guarded_of_operandOffset ho
  simp [State.hostAccess, HostAccess.target_of_aligned off _ ho.1, hm, State.hostWrite, hb, hg]

/-- A write touches COLLIDE only where it clears it: bit 3 of STATUS (10_state.md R28). -/
theorem writeTarget_collide (s : State) (v : Word) (t : Target) :
    (s.writeTarget v t).collide = s.collide ∨
      (t = .status ∧ v.getLsbD 3 = true ∧ (s.writeTarget v t).collide = false) := by
  cases t with
  | status =>
    rw [State.writeTarget, State.writeStatus_eq]
    cases hv : v.getLsbD 3 <;> simp
  | _ => exact .inl rfl

/-- Everything a host access can do to COLLIDE: nothing, the drop of an operand write, or the STATUS write
that clears it. -/
theorem hostAccess_collide_cases (s : State) (a : HostAccess) :
    (s.hostAccess a).collide = s.collide ∨
    (s.busy = true ∧ (∃ off v, a = ⟨off, 4, .write v⟩ ∧ operandOffset off) ∧
      (s.hostAccess a).collide = true) ∨
    ((∃ v, a = ⟨0x00C#12, 4, .write v⟩ ∧ v.getLsbD 3 = true) ∧ (s.hostAccess a).collide = false) := by
  obtain ⟨off, size, op⟩ := a
  rcases hostAccess_cases s ⟨off, size, op⟩ with ⟨_, he⟩ | ⟨_, _, _, _, _, he⟩ | ⟨_, _, _, _, he⟩ |
    ⟨t, v, ht, rfl, hb, hg, he⟩ | ⟨t, v, ht, rfl, _, he⟩ <;> rw [he]
  case inr.inr.inr.inl =>
    obtain ⟨rfl, hal, hm⟩ := HostAccess.of_target ht
    exact .inr (.inl ⟨hb, ⟨off, v, rfl, operandOffset_of_guarded hal hm hg⟩, rfl⟩)
  case inr.inr.inr.inr =>
    obtain ⟨rfl, _, hm⟩ := HostAccess.of_target ht
    rcases writeTarget_collide s v t with hsame | ⟨rfl, hv, hc⟩
    · exact .inl hsame
    · obtain rfl := eq_of_mapOffset_status hm
      exact .inr (.inr ⟨⟨v, rfl, hv⟩, hc⟩)
  all_goals exact .inl rfl

/-- The engine's turn leaves COLLIDE as it is (40_command_cycle.md R109). -/
theorem engineTurn_collide {s t : State} (h : engineTurn s = .next t) : t.collide = s.collide := by
  rcases engineTurn_next_cases h with ⟨_, rfl⟩ | ⟨c, _, rfl⟩ | ⟨i, p, _, _, hp, rfl⟩
  · rfl
  · rfl
  · rw [State.complete_ok_collide, commandResult_frame hp]

/-- Everything a step can do to COLLIDE: nothing, the drop of an operand write, or the two ways to clear it. -/
theorem step_collide_cases {s t : State} (h : step s = .next t) :
    t.collide = s.collide ∨
    (s.busy = true ∧ (∃ off v, s.nextAccess = some ⟨off, 4, .write v⟩ ∧ operandOffset off) ∧
      t.collide = true) ∨
    (((∃ v, s.nextAccess = some ⟨0x00C#12, 4, .write v⟩ ∧ v.getLsbD 3 = true) ∨
      s.inputs.head? = some .assertReset) ∧ t.collide = false) := by
  rcases step_cases_nextAccess h with ⟨_, he⟩ | ⟨a, ha, _, rfl⟩ | ⟨hr, rfl⟩ | ⟨_, rfl⟩
  · exact .inl (engineTurn_collide (s := s.taken) he)
  · rw [ha]
    rcases hostAccess_collide_cases s.taken a with
      hsame | ⟨hb, ⟨off, v, rfl, ho⟩, hc⟩ | ⟨⟨v, rfl, hv⟩, hc⟩
    · exact .inl hsame
    · exact .inr (.inl ⟨hb, ⟨off, v, rfl, ho⟩, hc⟩)
    · exact .inr (.inr ⟨.inl ⟨v, rfl, hv⟩, hc⟩)
  · exact .inr (.inr ⟨.inr hr, rfl⟩)
  · exact .inl rfl

/-- A step with a host access next makes that access. -/
theorem step_eq_hostAccess {s t : State} {a : HostAccess} (h : step s = .next t)
    (ha : s.nextAccess = some a) : t = s.taken.hostAccess a := by
  rcases step_cases_nextAccess h with ⟨hn, _⟩ | ⟨b, hb, _, rfl⟩ | ⟨hr, _⟩ | ⟨hr, _⟩
  · unfold State.engineIsNext at hn
    split at hn <;> simp_all [State.nextAccess]
  · rw [Option.some.inj (ha.symm.trans hb)]
  all_goals
    obtain ⟨rest, hi⟩ := List.head?_eq_some_iff.1 hr
    simp [State.nextAccess, hi] at ha

/-- The checks and the store of ENCRYPT and DECRYPT neither read nor write COLLIDE (10_state.md R28). -/
theorem frameResult_with_collide (s : State) (b : Bool) (f : Block → Block → List Byte → List Byte) :
    frameResult { s with collide := b } f = (frameResult s f).map fun p => { p with collide := b } := by
  simp only [frameResult, apply_ite (Except.map _)]
  rfl

/-- No command's pending writes depend on COLLIDE or change it (10_state.md R28). -/
theorem commandResult_with_collide (i : Instr) (s : State) (b : Bool) :
    commandResult i { s with collide := b } =
      (commandResult i s).map fun p => { p with collide := b } := by
  cases i with
  | nop => rfl
  | derive => simp only [commandResult, deriveResult, apply_ite (Except.map _)]; rfl
  | encrypt => exact frameResult_with_collide s b (frameEnc Config.blockCipher)
  | decrypt => exact frameResult_with_collide s b (frameDec Config.blockCipher)
  | getbw src start n le =>
    simp only [commandResult, getbwResult, apply_ite (Except.map _)]
    cases src <;> rfl
  | clear => rfl

/-- No command's outcome depends on COLLIDE (10_state.md R28). -/
theorem exec_with_collide {i : Instr} {s u : State} (b : Bool) (h : exec i s = .next u) :
    exec i { s with collide := b } = .next { u with collide := b } := by
  rw [exec_eq_complete] at h ⊢
  cases h
  rw [commandResult_with_collide]
  cases commandResult i s <;> rfl

/-- Settles O38, by what a step can do to COLLIDE. -/
theorem collideRecordsDroppedWrites : Obligations.CollideRecordsDroppedWrites := by
  unfold Obligations.CollideRecordsDroppedWrites
  intro s t h
  refine ⟨fun off v ha hb ho => ?_, fun h0 h1 => ?_, fun h1 h0 => ?_, fun i b u => exec_with_collide b⟩
  · rw [step_eq_hostAccess h ha, hostAccess_operand_busy (s := s.taken) hb ho]
    rfl
  · rcases step_collide_cases h with hc | ⟨hb, hw, _⟩ | ⟨_, hc⟩
    · simp [hc, h0] at h1
    · exact ⟨hb, hw⟩
    · simp [hc] at h1
  · rcases step_collide_cases h with hc | ⟨_, _, hc⟩ | ⟨hw, _⟩
    · simp [hc, h1] at h0
    · simp [hc] at h0
    · exact hw

/-! ### STATUS, CTRL and reset -/

/-- Settles O44: neither register is guarded, so each write is made. -/
theorem controlWritesAlwaysTake : Obligations.ControlWritesAlwaysTake := by
  unfold Obligations.ControlWritesAlwaysTake
  intro s v
  constructor
  · rw [writeAt_mapped s _ v .ctrl (by decide) rfl (by simp [Target.guarded])]
    rfl
  · rw [writeAt_mapped s _ v .status (by decide) rfl (by simp [Target.guarded]), State.writeTarget,
      State.writeStatus_eq]

/-- ERR stands in bits 11:8 of the STATUS word (10_state.md R24). -/
theorem statusWord_err (s : State) : s.statusWord.extractLsb' 8 4 = s.err.code := by
  ext j hj
  interval_cases j <;> simp [State.statusWord]

/-- Settles O45, bit by bit of the STATUS word. -/
theorem statusWordLayout : Obligations.StatusWordLayout := by
  unfold Obligations.StatusWordLayout
  intro s
  refine ⟨s.statusWord, readAt_mapped s _ .status (by decide) rfl (by simp [Target.engineWritten]),
    ?_, ?_, ?_, ?_, ?_, ?_, ?_⟩
  · simp [State.statusWord]
  · simp [State.statusWord]
  · simp [State.statusWord]
  · simp [State.statusWord]
  · ext j hj
    interval_cases j <;> simp [State.statusWord]
  · ext j hj
    interval_cases j <;> simp [State.statusWord]
  · rw [statusWord_err]
    cases s.err <;> rfl

/-- Settles O50: every item of the reset state by its definition, the byte arrays byte by byte. -/
theorem resetValues : Obligations.ResetValues := by
  unfold Obligations.ResetValues
  have salt_zero : ∀ i < 6, Salt.zero.byte i = 0#8 := by decide
  exact ⟨rfl, rfl, rfl, rfl, rfl, rfl, rfl, rfl, rfl, rfl, salt_zero,
    fun i hi => ⟨Block.byte_zero i hi, Block.byte_zero i hi⟩, fun _ => ⟨rfl, rfl⟩, rfl, rfl, rfl⟩

end Sys2Proof.Machine

/-! ## The host's accesses to the window (20_memory.md)

First the rules that several statements share: the bus window, which words of the map are where, what an
aligned access to a mapped word does, the byte lanes of what is read and written, and the numbers that a
buffer's words spell. Then the statements, in the order of the rules of 20_memory.md. -/

namespace Sys2Proof.Machine

/-! ### The bus window -/

/-- A host access with the reset input low is made (20_memory.md R62). -/
theorem hostTurn_released {s : State} (h : s.resetLine = false) (a : HostAccess) :
    hostTurn a s = .next (s.hostAccess a) := by
  simp [hostTurn, h]

/-- The address `BLOCK_BASE + off` stands for the block offset `off` (20_memory.md R50). -/
theorem windowOffset_blockBase_add (off : Offset) :
    windowOffset (Config.blockBase + off.toNat) = some off := by
  have hlt := off.isLt
  rw [windowOffset, if_pos (by omega), Nat.add_sub_cancel_left, BitVec.ofNat_toNat, BitVec.setWidth_eq]

theorem windowOffset_outside {addr : Nat}
    (h : addr < Config.blockBase ∨ Config.blockBase + 4096 ≤ addr) : windowOffset addr = none := by
  rw [windowOffset, if_neg (by omega)]

/-! ### The address map -/

/-- The mapped rows leave the holes of 20_memory.md R53. -/
theorem mapped_rows : ∀ row ∈ addressMap,
    row.last ≤ 0x018 ∨ (0x020 ≤ row.first ∧ row.last ≤ 0x044) ∨ (0x050 ≤ row.first ∧ row.last ≤ 0x06C) ∨
      (0x100 ≤ row.first ∧ row.last ≤ 0x2FC) := by
  simp [addressMap]

/-- A mapped offset lies outside the holes (20_memory.md R53, R58). -/
theorem range_of_mapOffset {off : Nat} {t : Target} (h : mapOffset off = some t) :
    off ≤ 0x018 ∨ (0x020 ≤ off ∧ off ≤ 0x044) ∨ (0x050 ≤ off ∧ off ≤ 0x06C) ∨
      (0x100 ≤ off ∧ off ≤ 0x2FC) := by
  obtain ⟨row, hrow, hfirst, hlast, _⟩ := mapRows_some h
  have hrange := mapped_rows row hrow
  omega

/-- The row of the address map that holds CMD (20_memory.md R53). -/
theorem cmd_row : ∀ row ∈ addressMap, ∀ k, row.target k = .cmd → row.first = 0x008 ∧ row.last = 0x008 := by
  simp [addressMap]

/-- CMD is at 0x008 alone (20_memory.md R53). -/
theorem eq_of_mapOffset_cmd {off : Offset} (hm : mapOffset off.toNat = some .cmd) : off = 0x008#12 := by
  obtain ⟨row, hrow, hfirst, hlast, ht⟩ := mapRows_some hm
  obtain ⟨h1, h2⟩ := cmd_row row hrow _ ht.symm
  exact offset_eq_ofNat (by omega)

/-- The words of RESULT, SKEY, SIV and DOUT, which only a completion writes (20_memory.md R53, R61). -/
abbrev resultOffset (off : Offset) : Prop :=
  off = 0x014#12 ∨ off = 0x018#12 ∨ (0x050 ≤ off.toNat ∧ off.toNat ≤ 0x06C) ∨
    (0x200 ≤ off.toNat ∧ off.toNat ≤ 0x2FC)

/-- The map's words from SKEY to SIV, and those of DOUT, are written by completions (20_memory.md R53, R61). -/
theorem mapOffset_skey_to_siv_engineWritten :
    ∀ k < 8, (mapOffset (0x050 + 4 * k)).any Target.engineWritten = true := by decide

theorem mapOffset_dout_engineWritten :
    ∀ k < 64, (mapOffset (0x200 + 4 * k)).any Target.engineWritten = true := by decide

/-- A result offset is mapped to a register that completions write (20_memory.md R53, R61). -/
theorem mapOffset_engineWritten_of_resultOffset {off : Offset} (ha : off.toNat % 4 = 0)
    (h : resultOffset off) : ∃ t, mapOffset off.toNat = some t ∧ t.engineWritten = true := by
  rw [← Option.any_eq_true]
  rcases h with rfl | rfl | hr | hr
  · rfl
  · rfl
  · rw [show off.toNat = 0x050 + 4 * ((off.toNat - 0x050) / 4) by omega]
    exact mapOffset_skey_to_siv_engineWritten _ (by omega)
  · rw [show off.toNat = 0x200 + 4 * ((off.toNat - 0x200) / 4) by omega]
    exact mapOffset_dout_engineWritten _ (by omega)

/-! ### Reads of a mapped word -/

/-- An operand or interface register is read in every state (20_memory.md R55). -/
theorem readAt_operand (s : State) {off : Offset} {t : Target} (ha : off.toNat % 4 = 0)
    (hm : mapOffset off.toNat = some t) (ht : t.engineWritten = false) :
    s.readAt off = { s with response := .data (s.readTarget t) } :=
  readAt_mapped s off t ha hm (by rw [ht, Bool.and_false])

/-- Every register is read while no command is in flight (20_memory.md R55, R61). -/
theorem readAt_idle {s : State} (hb : s.busy = false) {off : Offset} {t : Target} (ha : off.toNat % 4 = 0)
    (hm : mapOffset off.toNat = some t) : s.readAt off = { s with response := .data (s.readTarget t) } :=
  readAt_mapped s off t ha hm (by rw [hb, Bool.false_and])

/-- A result register answers a free value while a command is in flight (20_memory.md R61). -/
theorem readAt_unspecified {s : State} (hb : s.busy = true) {off : Offset} {t : Target}
    (ha : off.toNat % 4 = 0) (hm : mapOffset off.toNat = some t) (ht : t.engineWritten = true) :
    s.readAt off = s.respondUnspecified := by
  simp [State.readAt, State.hostAccess, HostAccess.target_of_aligned off _ ha, hm, State.hostRead, hb, ht]

theorem ctrlWord_eq (s : State) : s.ctrlWord = if s.ie then 1#32 else 0#32 := by
  cases h : s.ie <;> simp [State.ctrlWord, h]

/-- A bus word of a block holds byte `4k + m` in lane `m` (20_memory.md R57). -/
theorem lane_toWord_quad (x : Block) (k m : Nat) (h : m < 4) :
    (x.quad k).toWord.extractLsb' (8 * m) 8 = x.byte (4 * k + m) := by
  rw [Quad.lane_toWord _ m h, Block.byte_quad x k m h]

/-- The first bus word of the salt holds SALT[0..3] (20_memory.md R57). -/
theorem lane_lowWord (t : Salt) (m : Nat) (h : m < 4) :
    t.lowWord.extractLsb' (8 * m) 8 = t.byte m := by
  rw [Salt.lowWord, Quad.lane_toWord _ m h]
  interval_cases m <;> rfl

/-- The second bus word of the salt has zeros in its reserved bits 31:16 (10_state.md R34). -/
theorem highWord_reserved (t : Salt) : t.highWord.extractLsb' 16 16 = 0#16 := by
  ext j hj
  interval_cases j <;> simp [Salt.highWord, Quad.toWord]

/-! ### Writes of a mapped word -/

/-- A 32-bit write of a mapped offset. -/
theorem writeAt_eq_hostWrite (s : State) {off : Offset} (v : Word) {t : Target} (ha : off.toNat % 4 = 0)
    (hm : mapOffset off.toNat = some t) : s.writeAt off v = s.hostWrite t v := by
  simp [State.writeAt, State.hostAccess, HostAccess.target_of_aligned off _ ha, hm]

/-- Every register takes a write while no command is in flight (20_memory.md R56). -/
theorem writeAt_idle {s : State} (hb : s.busy = false) {off : Offset} (v : Word) {t : Target}
    (ha : off.toNat % 4 = 0) (hm : mapOffset off.toNat = some t) :
    s.writeAt off v = { s.writeTarget v t with response := .written } :=
  writeAt_mapped s off v t ha hm (by rw [hb, Bool.false_and])

/-- A read-only register ignores a write (20_memory.md R59). -/
theorem writeTarget_engineWritten (s : State) (v : Word) {t : Target} (h : t.engineWritten = true) :
    s.writeTarget v t = s := by
  cases t with
  | resultLo | resultHi | skey | siv | dout => rfl
  | _ => cases h

/-- A read-only register is not among those whose writes are dropped (20_memory.md R59, R60). -/
theorem not_guarded_of_engineWritten {t : Target} (h : t.engineWritten = true) : t.guarded = false := by
  cases t with
  | resultLo | resultHi | skey | siv | dout => rfl
  | _ => cases h

theorem writeAt_engineWritten (s : State) {off : Offset} (v : Word) {t : Target} (ha : off.toNat % 4 = 0)
    (hm : mapOffset off.toNat = some t) (ht : t.engineWritten = true) :
    s.writeAt off v = { s with response := .written } := by
  rw [writeAt_mapped s off v t ha hm (by rw [not_guarded_of_engineWritten ht, Bool.and_false]),
    writeTarget_engineWritten s v ht]

/-- A write to a mapped register completes without error, dropped or not (20_memory.md R56, R60). -/
theorem writeAt_response (s : State) {off : Offset} (v : Word) {t : Target} (ha : off.toNat % 4 = 0)
    (hm : mapOffset off.toNat = some t) : (s.writeAt off v).response = .written := by
  rw [writeAt_eq_hostWrite s v ha hm, State.hostWrite, State.respond_response]

/-- Values that a register takes alike are written alike, dropped or not. -/
theorem writeAt_congr {s : State} {off : Offset} {v w : Word} {t : Target} (ha : off.toNat % 4 = 0)
    (hm : mapOffset off.toNat = some t) (h : s.writeTarget v t = s.writeTarget w t) :
    s.writeAt off v = s.writeAt off w := by
  rw [writeAt_eq_hostWrite s v ha hm, writeAt_eq_hostWrite s w ha hm, State.hostWrite, State.hostWrite, h]

/-- CTRL takes bit 0 alone (10_state.md R22). -/
theorem writeTarget_ctrl_masked (s : State) (v : Word) :
    s.writeTarget v .ctrl = s.writeTarget (v &&& 0x00000001#32) .ctrl := by
  simp [State.writeTarget, State.writeCtrl]

/-- STATUS takes bits 1 and 3 alone (10_state.md R24). -/
theorem writeTarget_status_masked (s : State) (v : Word) :
    s.writeTarget v .status = s.writeTarget (v &&& 0x0000000A#32) .status := by
  simp [State.writeTarget, State.writeStatus_eq]

/-- LEN takes bits 7:0 alone (10_state.md R30). -/
theorem writeTarget_len_masked (s : State) (v : Word) :
    s.writeTarget v .len = s.writeTarget (v &&& 0x000000FF#32) .len := by
  have hlow : v.setWidth 8 = (v &&& 0x000000FF#32).setWidth 8 := by
    ext j hj
    interval_cases j <;> simp
  rw [State.writeTarget, State.writeTarget, hlow]

/-- The second word of SALT takes bits 15:0 alone (10_state.md R34). -/
theorem writeTarget_saltHigh_masked (s : State) (v : Word) :
    s.writeTarget v .saltHigh = s.writeTarget (v &&& 0x0000FFFF#32) .saltHigh := by
  have hlane : ∀ m < 2, v.extractLsb' (8 * m) 8 = (v &&& 0x0000FFFF#32).extractLsb' (8 * m) 8 := by
    intro m hm
    ext j hj
    interval_cases m <;> interval_cases j <;> simp
  have h0 : (Quad.ofWord v).b0 = (Quad.ofWord (v &&& 0x0000FFFF#32)).b0 := hlane 0 (by omega)
  have h1 : (Quad.ofWord v).b1 = (Quad.ofWord (v &&& 0x0000FFFF#32)).b1 := hlane 1 (by omega)
  simp only [State.writeTarget, Salt.setHigh, h0, h1]

theorem setLow_byte (t : Salt) (v : Word) (i : Nat) (h : i < 6) :
    (t.setLow v).byte i = if i < 4 then v.extractLsb' (8 * i) 8 else t.byte i := by
  interval_cases i <;> rfl

theorem setHigh_byte (t : Salt) (v : Word) (i : Nat) (h : i < 6) :
    (t.setHigh v).byte i = if i < 4 then t.byte i else v.extractLsb' (8 * (i - 4)) 8 := by
  interval_cases i <;> rfl

/-- A write of a block's word `k` sets its four bytes and no other (20_memory.md R56, R57). -/
theorem byte_setQuad_ofWord (x : Block) (k : Nat) (v : Word) (hk : k < 4) (i : Nat) (hi : i < 16) :
    (x.setQuad k (Quad.ofWord v)).byte i = if i / 4 = k then v.extractLsb' (8 * (i % 4)) 8 else x.byte i := by
  rw [Block.byte_setQuad x k i _ hk hi, Quad.byte_ofWord v _ (Nat.mod_lt i (by omega))]

/-! ### A write made twice -/

theorem setQuad_setQuad (x : Block) (k : Nat) (q : Quad) : (x.setQuad k q).setQuad k q = x.setQuad k q := by
  rcases k with _ | _ | _ | k <;> rfl

theorem setWord_setWord {d : Memory} (h : Memory.wf d = true) (k : Nat) (v : Word) :
    Memory.setWord (Memory.setWord d k v) k v = Memory.setWord d k v := by
  have hw := Memory.wf_setWord h k v
  refine Memory.ext_read (Memory.wf_setWord hw k v) hw fun a => ?_
  rw [Memory.read_setWord hw, Memory.read_setWord h]
  split <;> rfl

/-- A write made twice leaves what it leaves when made once (20_memory.md R56). -/
theorem writeTarget_writeTarget {s : State} (hd : Memory.wf s.din = true) (v : Word) (t : Target) :
    (s.writeTarget v t).writeTarget v t = s.writeTarget v t := by
  cases t with
  | status => simp [State.writeTarget, State.writeStatus_eq]
  | mkey k => simp only [State.writeTarget, setQuad_setQuad]
  | miv k => simp only [State.writeTarget, setQuad_setQuad]
  | din k => simp only [State.writeTarget, setWord_setWord hd]
  | _ => rfl

/-- No register's write reads the bus's response. -/
theorem writeTarget_respond (s : State) (r : BusResponse) (v : Word) (t : Target) :
    (s.respond r).writeTarget v t = (s.writeTarget v t).respond r := by
  cases t with
  | status => simp [State.writeTarget, State.writeStatus_eq, State.respond]
  | _ => rfl

/-- Only a launch changes BUSY (40_command_cycle.md R101). -/
theorem writeTarget_busy (s : State) (v : Word) {t : Target} (h : t ≠ .cmd) :
    (s.writeTarget v t).busy = s.busy := by
  cases t with
  | cmd => exact absurd rfl h
  | status => rw [State.writeTarget, State.writeStatus_eq]
  | _ => rfl

theorem hostWrite_dropped {s : State} {t : Target} (v : Word) (h : (s.busy && t.guarded) = true) :
    s.hostWrite t v = s.drop.respond .written := by
  simp [State.hostWrite, h]

theorem hostWrite_made {s : State} {t : Target} (v : Word) (h : (s.busy && t.guarded) = false) :
    s.hostWrite t v = (s.writeTarget v t).respond .written := by
  simp [State.hostWrite, h]

/-- A host write to a register other than CMD leaves BUSY, so the second of two equal writes is dropped or
made as the first was. -/
theorem hostWrite_hostWrite {s : State} (hd : Memory.wf s.din = true) {t : Target} (ht : t ≠ .cmd)
    (v : Word) : (s.hostWrite t v).hostWrite t v = s.hostWrite t v := by
  cases h : s.busy && t.guarded with
  | true =>
    rw [hostWrite_dropped v h, hostWrite_dropped (s := s.drop.respond .written) v h]
    rfl
  | false =>
    have hagain : (((s.writeTarget v t).respond .written).busy && t.guarded) = false := by
      rw [State.respond_busy, writeTarget_busy s v ht, h]
    rw [hostWrite_made v h, hostWrite_made v hagain, writeTarget_respond, writeTarget_writeTarget hd]
    rfl

/-! ### Words and fields as numbers -/

/-- The first `n` stream bits of a byte are its upper bits (00_scope.md R6). -/
theorem bitsBigEndian_byte_upper (buf : Memory) (a n : Nat) (h : n ≤ 8) :
    bitsBigEndian buf (8 * a) n = (Memory.read buf a).toNat / 2 ^ (8 - n) := by
  induction n with
  | zero =>
    have hlt := (Memory.read buf a).isLt
    rw [bitsBigEndian_zero, Nat.div_eq_of_lt hlt]
  | succ n ih =>
    have hbit : (sbit buf (8 * a + n)).toNat = (Memory.read buf a).toNat / 2 ^ (7 - n) % 2 := by
      rw [sbit, show (8 * a + n) / 8 = a by omega, show (8 * a + n) % 8 = n by omega,
        ← BitVec.testBit_toNat, Nat.toNat_testBit]
    rw [bitsBigEndian_succ, ih (by omega), hbit, show 8 - n = (7 - n) + 1 by omega, Nat.pow_succ,
      ← Nat.div_div_eq_div_mul, show 8 - (n + 1) = 7 - n by omega]
    exact Nat.div_add_mod _ 2

/-- A group that starts at a byte is that byte (41_bitreader.md R122). -/
theorem fieldGroup_word (buf : Memory) (k j : Nat) :
    fieldGroup buf (32 * k) j = (Memory.read buf (4 * k + j)).toNat := by
  rw [fieldGroup, show 32 * k + 8 * j = 8 * (4 * k + j) by ring,
    bitsBigEndian_byte_upper buf _ 8 (Nat.le_refl 8), Nat.sub_self, Nat.pow_zero, Nat.div_one]

/-- A bus word of a buffer is the little-endian number of its four bytes (20_memory.md R65). -/
theorem toNat_word (d : Memory) (k : Nat) : (Memory.word d k).toNat =
    (Finset.range 4).sum fun m => (Memory.read d (4 * k + m)).toNat * 256 ^ m := by
  rw [Memory.word, Quad.toWord_eq_append, toNat_append_bytes]
  simp only [Quad.ofFn, Finset.sum_range_succ, Finset.sum_range_zero]
  omega

/-- With LE = 0, GETBW reads a buffer's word as the big-endian number of its bytes (20_memory.md R65). -/
theorem bitword_word_big (d : Memory) (k : Nat) : bitword d (32 * k) 32 false =
    (Finset.range 4).sum fun m => (Memory.read d (4 * k + m)).toNat * 256 ^ (3 - m) := by
  rw [bitword_big _ _ _ (by omega), sumBelow_eq_sum]
  refine Finset.sum_congr rfl fun m _ => ?_
  rw [fieldGroup_word, Nat.pow_mul]

/-- With LE = 1, GETBW reads a buffer's word as the bus does (20_memory.md R65). -/
theorem bitword_word_little (d : Memory) (k : Nat) :
    bitword d (32 * k) 32 true = (Memory.word d k).toNat := by
  rw [bitword_little _ _ _ (by omega), sumBelow_eq_sum, toNat_word]
  refine Finset.sum_congr rfl fun m _ => ?_
  rw [fieldGroup_word, Nat.pow_mul]

/-! ### Accesses while a command is in flight -/

/-- A write that is not dropped while a command is in flight reaches CTRL and STATUS at most
(20_memory.md R60). -/
theorem writeTarget_frame_of_not_guarded (s : State) (v : Word) {t : Target} (h : t.guarded = false) :
    s.writeTarget v t = { s with ie := (s.writeTarget v t).ie, done := (s.writeTarget v t).done,
                                 collide := (s.writeTarget v t).collide } := by
  cases t with
  | status => rw [State.writeTarget, State.writeStatus_eq]
  | id | ctrl | resultLo | resultHi | skey | siv | dout => rfl
  | _ => cases h

/-- Everything a host access changes while a command is in flight: CTRL.IE, DONE, COLLIDE, the response and
the count of free values (40_command_cycle.md R107). -/
theorem hostAccess_frame_of_busy {s t : State} {a : HostAccess} (hb : s.busy = true)
    (h : t = s.hostAccess a) :
    t = { s with ie := t.ie, done := t.done, collide := t.collide, response := t.response,
                 drawn := t.drawn } := by
  rcases hostAccess_cases s a with ⟨_, he⟩ | ⟨_, _, _, _, _, he⟩ | ⟨_, _, _, _, he⟩ |
    ⟨_, _, _, _, _, _, he⟩ | ⟨r, v, _, _, hg, he⟩ <;> rw [he] at h <;> subst h
  case inr.inr.inr.inr =>
    have hfree : r.guarded = false := hg.resolve_left (by simp [hb])
    rw [writeTarget_frame_of_not_guarded s v hfree]
    rfl
  all_goals rfl

/-- A command in flight ends with the engine's turn. -/
theorem busy_of_engineTurn {s t : State} (h : engineTurn s = .next t) : t.busy = false := by
  rcases engineTurn_next_cases h with ⟨hb, rfl⟩ | ⟨_, _, rfl⟩ | ⟨_, _, _, _, _, rfl⟩
  · exact hb
  · rfl
  · rfl

/-- Everything a step changes when it leaves the command in flight: what a host access may change, the
inputs and the reset input (40_command_cycle.md R107). -/
theorem step_frame_in_flight {s t : State} (h : step s = .next t) (hs : s.busy = true) (ht : t.busy = true) :
    t = { s with ie := t.ie, done := t.done, collide := t.collide, response := t.response, drawn := t.drawn,
                 inputs := t.inputs, resetLine := t.resetLine } := by
  rcases step_cases_nextAccess h with ⟨_, he⟩ | ⟨a, _, _, ha⟩ | ⟨_, rfl⟩ | ⟨_, rfl⟩
  · rw [busy_of_engineTurn he] at ht
    cases ht
  · rw [hostAccess_frame_of_busy (s := s.taken) hs ha]
  · cases ht
  · rfl

/-! ### The statements -/

/-- Settles O9. -/
theorem hostAccessIsOneStep : Obligations.HostAccessIsOneStep := by
  unfold Obligations.HostAccessIsOneStep
  intro s a rest hr
  rw [step_with_cons, takeInput]
  exact hostTurn_released (s := { s with inputs := rest }) hr a

/-- Settles O10: an address of the window is its offset, one outside it has none. -/
theorem busWindowStandsForOffsets : Obligations.BusWindowStandsForOffsets := by
  unfold Obligations.BusWindowStandsForOffsets
  refine ⟨Nat.mul_mod_right 4096 Config.blockPage, fun s off size op rest => ?_,
    fun s addr size op rest h => ?_⟩
  · simp only [step_with_cons, takeInput, windowOffset_blockBase_add]
  · simp only [step_with_cons, takeInput, windowOffset_outside h]

/-- Settles O39: an access that reached a register would be a 32-bit one, aligned and outside the holes. -/
theorem busErrorsChangeNothing : Obligations.BusErrorsChangeNothing := by
  unfold Obligations.BusErrorsChangeNothing
  intro s a h
  rcases hostAccess_cases s a with ⟨_, he⟩ | ⟨t, ht, _⟩ | ⟨t, ht, _⟩ | ⟨t, _, ht, _⟩ | ⟨t, _, ht, _⟩
  case inl => exact he
  all_goals
    obtain ⟨hsize, hal, hm⟩ := HostAccess.of_target ht
    have hrange := range_of_mapOffset hm
    simp only [BitVec.toNat_eq, BitVec.toNat_ofNat] at h
    omega

/-- Settles O40: the value of each operand and interface register, byte arrays lane by lane. -/
theorem operandReadsReturnValues : Obligations.OperandReadsReturnValues := by
  unfold Obligations.OperandReadsReturnValues
  intro s
  refine ⟨readAt_operand s (t := .id) rfl rfl rfl, ?_, readAt_operand s (t := .cmd) rfl rfl rfl, ?_,
    fun k hk => ⟨_, readAt_operand s (offset_aligned _ (by omega)) (mapOffset_mkey k hk) rfl,
      lane_toWord_quad s.mkey k⟩,
    fun k hk => ⟨_, readAt_operand s (offset_aligned _ (by omega)) (mapOffset_miv k hk) rfl,
      lane_toWord_quad s.miv k⟩,
    ⟨_, readAt_operand s (t := .saltLow) rfl rfl rfl, lane_lowWord s.salt⟩,
    ⟨_, readAt_operand s (t := .saltHigh) rfl rfl rfl, Quad.lane_toWord _ 0 (by omega),
      Quad.lane_toWord _ 1 (by omega), highWord_reserved s.salt⟩,
    fun k hk => ⟨_, readAt_operand s (offset_aligned _ (by omega)) (mapOffset_din k hk) rfl,
      Memory.lane_word s.din k⟩⟩
  · rw [← ctrlWord_eq]
    exact readAt_operand s (t := .ctrl) rfl rfl rfl
  · rw [BitVec.ofNat_toNat]
    exact readAt_operand s (t := .len) rfl rfl rfl

/-- Settles O41: the value of each result register, byte arrays lane by lane. -/
theorem idleReadsReturnResults : Obligations.IdleReadsReturnResults := by
  unfold Obligations.IdleReadsReturnResults
  intro s hb
  exact ⟨readAt_idle hb (t := .resultLo) rfl rfl, readAt_idle hb (t := .resultHi) rfl rfl,
    fun k hk => ⟨_, readAt_idle hb (offset_aligned _ (by omega)) (mapOffset_skey k hk),
      lane_toWord_quad s.skey k⟩,
    fun k hk => ⟨_, readAt_idle hb (offset_aligned _ (by omega)) (mapOffset_siv k hk),
      lane_toWord_quad s.siv k⟩,
    fun k hk => ⟨_, readAt_idle hb (offset_aligned _ (by omega)) (mapOffset_dout k hk),
      Memory.lane_word s.dout k⟩⟩

/-- Settles O42. -/
theorem busyReadsAreUnspecified : Obligations.BusyReadsAreUnspecified := by
  unfold Obligations.BusyReadsAreUnspecified
  intro s off hb ha hoff
  obtain ⟨t, hm, ht⟩ := mapOffset_engineWritten_of_resultOffset ha hoff
  exact readAt_unspecified hb ha hm ht

/-- Settles O43: what each operand register holds after the write, byte by byte. -/
theorem operandWritesLandInTheirLanes : Obligations.OperandWritesLandInTheirLanes := by
  unfold Obligations.OperandWritesLandInTheirLanes
  intro s v hb hd
  refine ⟨?_,
    fun k hk => ⟨_, writeAt_idle hb v (offset_aligned _ (by omega)) (mapOffset_mkey k hk),
      byte_setQuad_ofWord s.mkey k v hk⟩,
    fun k hk => ⟨_, writeAt_idle hb v (offset_aligned _ (by omega)) (mapOffset_miv k hk),
      byte_setQuad_ofWord s.miv k v hk⟩,
    ⟨_, writeAt_idle hb v (t := .saltLow) rfl rfl, setLow_byte s.salt v⟩,
    ⟨_, writeAt_idle hb v (t := .saltHigh) rfl rfl, setHigh_byte s.salt v⟩,
    fun k hk => ⟨_, writeAt_idle hb v (offset_aligned _ (by omega)) (mapOffset_din k hk),
      Memory.read_setWord hd k v⟩⟩
  rw [← BitVec.setWidth_eq_extractLsb' (by omega)]
  exact writeAt_idle hb v (t := .len) rfl rfl

/-- Settles O46: a read-only register takes nothing of the written word, the others none of its reserved
bits. -/
theorem readOnlyAndReservedBitsIgnoreWrites : Obligations.ReadOnlyAndReservedBitsIgnoreWrites := by
  unfold Obligations.ReadOnlyAndReservedBitsIgnoreWrites
  intro s v
  refine ⟨fun off ha hoff => ?_, writeAt_congr rfl rfl (writeTarget_ctrl_masked s v),
    writeAt_congr rfl rfl (writeTarget_status_masked s v), writeAt_congr rfl rfl (writeTarget_len_masked s v),
    writeAt_congr rfl rfl (writeTarget_saltHigh_masked s v), fun off hoff => ?_,
    readAt_operand s (t := .cmd) rfl rfl rfl⟩
  · rcases hoff with rfl | hoff
    · exact writeAt_mapped s _ v .id rfl rfl (by simp [Target.guarded])
    · obtain ⟨t, hm, ht⟩ := mapOffset_engineWritten_of_resultOffset ha hoff
      exact writeAt_engineWritten s v ha hm ht
  · simp only [List.mem_cons, List.not_mem_nil, or_false] at hoff
    rcases hoff with rfl | rfl | rfl | rfl
    · exact writeAt_response s v (t := .ctrl) rfl rfl
    · exact writeAt_response s v (t := .status) rfl rfl
    · exact writeAt_response s v (t := .len) rfl rfl
    · exact writeAt_response s v (t := .saltHigh) rfl rfl

/-- Settles O47: the second write finds the register and BUSY as the first left them. -/
theorem writesAreIdempotent : Obligations.WritesAreIdempotent := by
  unfold Obligations.WritesAreIdempotent
  intro s off v hd hoff
  cases ht : (HostAccess.mk off 4 (.write v)).target with
  | none => simp [State.writeAt, State.hostAccess, ht, State.respond]
  | some t =>
    obtain ⟨_, ha, hm⟩ := HostAccess.of_target ht
    have hcmd : t ≠ .cmd := by
      rintro rfl
      exact hoff (eq_of_mapOffset_cmd hm)
    rw [writeAt_eq_hostWrite s v ha hm, writeAt_eq_hostWrite _ v ha hm, hostWrite_hostWrite hd hcmd]

/-- Settles O48: the numbers of a word hold for every buffer, so for DIN and for DOUT. -/
theorem wordsAndFieldsOfTheSameBytes : Obligations.WordsAndFieldsOfTheSameBytes := by
  unfold Obligations.WordsAndFieldsOfTheSameBytes
  intro s k hk
  refine ⟨Memory.word s.din k, Memory.word s.dout k,
    readAt_operand s (offset_aligned _ (by omega)) (mapOffset_din k hk) rfl,
    fun hb => readAt_idle hb (offset_aligned _ (by omega)) (mapOffset_dout k hk), fun p hp => ?_⟩
  obtain ⟨d, rfl⟩ : ∃ d, p = (d, Memory.word d k) := by
    simp only [List.mem_cons, List.not_mem_nil, or_false] at hp
    rcases hp with rfl | rfl
    · exact ⟨_, rfl⟩
    · exact ⟨_, rfl⟩
  exact ⟨toNat_word d k, bitword_word_big d k, bitword_word_little d k⟩

/-- Settles O58, by what a step may change while the command stays in flight. -/
theorem operandsStableInFlight : Obligations.OperandsStableInFlight := by
  unfold Obligations.OperandsStableInFlight
  intro s t h hs ht
  rw [step_frame_in_flight h hs ht]
  exact ⟨rfl, rfl, rfl, rfl, rfl, rfl, rfl, rfl, rfl, rfl, rfl, rfl, rfl⟩

end Sys2Proof.Machine

/-! ## The command word (30_encoding.md)

A word is its seven fields side by side (R80). So decoding reads fields off a concatenation, encoding
GETBW builds one, and the GETBW row of the opcode table asks something of OP, RES0 and RES1 alone. -/

namespace Sys2Proof

/-! ### A word and its fields -/

/-- The word with the given fields, from bit 31 down to bit 0 (30_encoding.md R80). -/
def joinFields (start : BitVec 16) (res1 : BitVec 2) (n : BitVec 6) (res0 : BitVec 2) (src le : Bool)
    (op : BitVec 4) : Word :=
  (start.setWidth 32 <<< 16) ||| (res1.setWidth 32 <<< 14) ||| (n.setWidth 32 <<< 8)
    ||| (res0.setWidth 32 <<< 6) ||| ((BitVec.ofBool src).setWidth 32 <<< 5)
    ||| ((BitVec.ofBool le).setWidth 32 <<< 4) ||| op.setWidth 32

/-- A field put back at its place holds the word's bits there and no others. -/
theorem getElem_field_in_place (w : Word) (first len : Nat) {j : Nat} (hj : j < 32) :
    ((w.extractLsb' first len).setWidth 32 <<< first)[j] = (decide (first ≤ j ∧ j < first + len) && w[j]) := by
  by_cases hle : first ≤ j
  · have hlen : j - first < len ↔ j < first + len := by omega
    simp [hle, hlen, Nat.not_lt.mpr hle, BitVec.getLsbD_eq_getElem hj]
  · simp [hle, Nat.lt_of_not_le hle]

theorem ofBool_getLsbD (w : Word) (k : Nat) : BitVec.ofBool (w.getLsbD k) = w.extractLsb' k 1 := by
  ext j hj
  obtain rfl : j = 0 := by omega
  simp

/-- A word is its fields: R80 leaves no bit out. -/
theorem joinFields_fields (w : Word) :
    joinFields (startField w) (res1Field w) (bitlenField w) (res0Field w) (srcBit w) (leBit w) (opField w)
      = w := by
  ext j hj
  have hop : ((opField w).setWidth 32)[j] = (decide (0 ≤ j ∧ j < 0 + 4) && w[j]) := by
    rw [← getElem_field_in_place w 0 4 hj, BitVec.shiftLeft_zero, opField]
  simp only [joinFields, startField, res1Field, bitlenField, res0Field, srcBit, leBit, ofBool_getLsbD,
    BitVec.getElem_or, getElem_field_in_place, hop]
  cases w[j] with
  | false => simp
  | true =>
    simp only [Bool.and_true, Bool.or_eq_true, decide_eq_true_eq]
    omega

section
variable (start : BitVec 16) (res1 : BitVec 2) (n : BitVec 6) (res0 : BitVec 2) (src le : Bool)
  (op : BitVec 4)

@[simp] theorem opField_joinFields : opField (joinFields start res1 n res0 src le op) = op := by
  ext j hj
  interval_cases j <;> simp [opField, joinFields]

@[simp] theorem leBit_joinFields : leBit (joinFields start res1 n res0 src le op) = le := by
  simp [leBit, joinFields]

@[simp] theorem srcBit_joinFields : srcBit (joinFields start res1 n res0 src le op) = src := by
  simp [srcBit, joinFields]

@[simp] theorem res0Field_joinFields : res0Field (joinFields start res1 n res0 src le op) = res0 := by
  ext j hj
  interval_cases j <;> simp [res0Field, joinFields]

@[simp] theorem bitlenField_joinFields : bitlenField (joinFields start res1 n res0 src le op) = n := by
  ext j hj
  interval_cases j <;> simp [bitlenField, joinFields]

@[simp] theorem res1Field_joinFields : res1Field (joinFields start res1 n res0 src le op) = res1 := by
  ext j hj
  interval_cases j <;> simp [res1Field, joinFields]

@[simp] theorem startField_joinFields : startField (joinFields start res1 n res0 src le op) = start := by
  ext j hj
  simp (disch := omega) [startField, joinFields, BitVec.getLsbD_of_ge]

end

/-- A format B word is its operands' fields with both reserved fields 0 and OP = 4 (30_encoding.md R81, R87). -/
theorem encodeFormatB_eq_joinFields (src : Bool) (start n : Nat) (le : Bool) :
    encodeFormatB src start n le =
      joinFields (BitVec.ofNat 16 start) 0 (BitVec.ofNat 6 n) 0 src le 4 := by
  simp [encodeFormatB, joinFields]

/-- The mask of the GETBW row keeps OP, RES0 and RES1 and no other field. -/
theorem and_maskB (w : Word) :
    w &&& 0x0000C0CF#32 = joinFields 0 (res1Field w) 0 (res0Field w) false false (opField w) := by
  have hres : ∀ x : BitVec 2, x &&& 3#2 = x := fun _ => BitVec.and_allOnes
  have hop : ∀ x : BitVec 4, x &&& 15#4 = x := fun _ => BitVec.and_allOnes
  rw [← joinFields_fields (w &&& 0x0000C0CF#32)]
  simp [startField, res1Field, bitlenField, res0Field, srcBit, leBit, opField, BitVec.extractLsb'_and, hres, hop]

/-- A word matches the GETBW row exactly when OP = 4 and both reserved fields are 0 (30_encoding.md R86). -/
theorem and_maskB_eq_iff (w : Word) :
    w &&& 0x0000C0CF#32 = 0x00000004#32 ↔ opField w = 4 ∧ res0Field w = 0 ∧ res1Field w = 0 := by
  have h4 : 0x00000004#32 = joinFields 0 0 0 0 false false 4 := by decide
  rw [and_maskB, h4]
  constructor
  · intro h
    have hop := congrArg opField h
    have h0 := congrArg res0Field h
    have h1 := congrArg res1Field h
    simp only [opField_joinFields, res0Field_joinFields, res1Field_joinFields] at hop h0 h1
    exact ⟨hop, h0, h1⟩
  · rintro ⟨hop, h0, h1⟩
    rw [hop, h0, h1]

/-! ### The decoder -/

/-- The OP number and the command of each format N row (30_encoding.md R82). -/
def formatNRows : List (Nat × Instr) :=
  [(0, .nop), (1, .derive), (2, .encrypt), (3, .decrypt), (5, .clear)]

/-- Everything the decoder can do with a word, by its OP field. -/
theorem decode_cases (w : Word) :
    (∃ i, (w.toNat % 16, i) ∈ formatNRows ∧ decode w = decodeFormatN w i) ∨
    (w.toNat % 16 = 4 ∧ decode w = decodeFormatB w) ∨
    (6 ≤ w.toNat % 16 ∧ decode w = .error .reservedOp) := by
  unfold decode
  rw [← opField_toNat]
  split
  case h_5 hop => exact .inr (.inl ⟨hop, rfl⟩)
  case h_7 h0 h1 h2 h3 h4 h5 =>
    simp only [imp_false] at h0 h1 h2 h3 h4 h5
    exact .inr (.inr ⟨by omega, rfl⟩)
  all_goals
    next hop => exact .inl ⟨_, by simp [hop, formatNRows], rfl⟩

/-- A word of OP 4 is decoded as format B (30_encoding.md R82). -/
theorem decode_of_opField_four {w : Word} (h : opField w = 4) : decode w = decodeFormatB w := by
  simp [decode, h]

theorem decodeFormatB_of_reserved_zero {w : Word} (h0 : res0Field w = 0) (h1 : res1Field w = 0) :
    decodeFormatB w =
      .ok (.getbw (bufOfSrc (srcBit w)) (startField w).toNat (bitlenField w).toNat (leBit w)) :=
  if_pos ⟨h0, h1⟩

/-- What a word that decodes to GETBW looks like, and which operands it gives (30_encoding.md R83). -/
theorem decode_eq_getbw {w : Word} {src : BufSel} {start n : Nat} {le : Bool}
    (h : decode w = .ok (.getbw src start n le)) :
    (opField w = 4 ∧ res0Field w = 0 ∧ res1Field w = 0) ∧
      src = bufOfSrc (srcBit w) ∧ start = (startField w).toNat ∧ n = (bitlenField w).toNat ∧
      le = leBit w := by
  rcases decode_cases w with ⟨i, hi, hd⟩ | ⟨hop, hd⟩ | ⟨_, hd⟩ <;> rw [hd] at h
  · obtain ⟨rfl, _⟩ := decodeFormatN_ok h
    simp [formatNRows] at hi
  · unfold decodeFormatB at h
    split at h
    · next hres =>
      cases h
      exact ⟨⟨BitVec.eq_of_toNat_eq (by rw [opField_toNat, hop]; rfl), hres⟩, rfl, rfl, rfl, rfl⟩
    · cases h
  · cases h

/-! ### Decoding and encoding are inverse -/

/-- Settles O1: the fields that `encode` puts side by side are the ones `decode` reads. -/
theorem decodeOfEncode : Obligations.DecodeOfEncode := by
  unfold Obligations.DecodeOfEncode
  intro i hw
  cases i with
  | getbw src start n le =>
    simp only [Instr.wellFormed, startFits, widthFits, Bool.and_eq_true, decide_eq_true_eq] at hw
    obtain ⟨hstart, hn⟩ := hw
    rw [encode, encodeFormatB_eq_joinFields, decode_of_opField_four (by simp),
      decodeFormatB_of_reserved_zero (by simp) (by simp)]
    simp [Nat.mod_eq_of_lt hstart, Nat.mod_eq_of_lt hn]
  | _ => rfl

/-- Settles O2: a GETBW word is its fields with the reserved ones 0, every other legal word is its OP. -/
theorem encodeOfDecode : Obligations.EncodeOfDecode := by
  unfold Obligations.EncodeOfDecode
  intro w i h
  cases i with
  | getbw src start n le =>
    obtain ⟨⟨hop, h0, h1⟩, rfl, rfl, rfl, rfl⟩ := decode_eq_getbw h
    refine ⟨by simp [Instr.wellFormed, startFits, widthFits, startField_lt, bitlenField_lt], ?_⟩
    rw [encode, srcOfBuf_bufOfSrc, encodeFormatB_eq_joinFields]
    conv_rhs => rw [← joinFields_fields w, hop, h0, h1]
    simp
  | _ => exact ⟨rfl, (eq_encode_of_decode h nofun).symm⟩

/-- A command other than GETBW is decoded from its own word alone. -/
theorem decode_eq_ok_iff {i : Instr} (hi : ∀ src start n le, i ≠ .getbw src start n le) (w : Word) :
    decode w = .ok i ↔ w = encode i := by
  refine ⟨fun h => eq_encode_of_decode h hi, ?_⟩
  rintro rfl
  apply decodeOfEncode
  cases i with
  | getbw src start n le => exact absurd rfl (hi src start n le)
  | _ => rfl

/-- Some GETBW is decoded from exactly the words of its row (30_encoding.md R86). -/
theorem decode_getbw_iff (w : Word) :
    (∃ src start n le, decode w = .ok (.getbw src start n le)) ↔ w &&& 0x0000C0CF#32 = 0x00000004#32 := by
  rw [and_maskB_eq_iff]
  constructor
  · rintro ⟨src, start, n, le, h⟩
    exact (decode_eq_getbw h).1
  · rintro ⟨hop, h0, h1⟩
    exact ⟨_, _, _, _, (decode_of_opField_four hop).trans (decodeFormatB_of_reserved_zero h0 h1)⟩

/-! ### Illegal words -/

theorem decode_error_iff (w : Word) : (∃ e, decode w = .error e) ↔ ∀ i, decode w ≠ .ok i := by
  cases decode w <;> simp

/-- Settles O3: each row decides its command, and a word is illegal when it decodes to no command. -/
theorem decoderFollowsTheTable : Obligations.DecoderFollowsTheTable := by
  unfold Obligations.DecoderFollowsTheTable
  intro w
  have hmask : w &&& 0xFFFFFFFF#32 = w := BitVec.and_allOnes
  have hnop : decode w = .ok .nop ↔ w = 0x00000000#32 := decode_eq_ok_iff (i := .nop) nofun w
  have hderive : decode w = .ok .derive ↔ w = 0x00000001#32 := decode_eq_ok_iff (i := .derive) nofun w
  have hencrypt : decode w = .ok .encrypt ↔ w = 0x00000002#32 := decode_eq_ok_iff (i := .encrypt) nofun w
  have hdecrypt : decode w = .ok .decrypt ↔ w = 0x00000003#32 := decode_eq_ok_iff (i := .decrypt) nofun w
  have hclear : decode w = .ok .clear ↔ w = 0x00000005#32 := decode_eq_ok_iff (i := .clear) nofun w
  rw [hmask]
  refine ⟨hnop, hderive, hencrypt, hdecrypt, decode_getbw_iff w, hclear, ?_⟩
  simp only [decode_error_iff, ne_eq, ← decode_getbw_iff, ← hnop, ← hderive, ← hencrypt, ← hdecrypt,
    ← hclear]
  constructor
  · intro h
    exact ⟨h _, h _, h _, h _, fun ⟨_, _, _, _, hd⟩ => h _ hd, h _⟩
  · rintro ⟨h0, h1, h2, h3, h4, h5⟩ i
    cases i with
    | nop => exact h0
    | derive => exact h1
    | encrypt => exact h2
    | decrypt => exact h3
    | getbw src start n le => exact fun hd => h4 ⟨src, start, n, le, hd⟩
    | clear => exact h5

/-- The OP numbers of the format N rows. -/
theorem mem_formatNOps_of_row {op : Nat} {i : Instr} (h : (op, i) ∈ formatNRows) : op ∈ [0, 1, 2, 3, 5] :=
  List.mem_map_of_mem (f := Prod.fst) h

/-- Settles O4: OP picks one format or none, and each format has one way to refuse a word. -/
theorem illegalWordsByClause : Obligations.IllegalWordsByClause := by
  unfold Obligations.IllegalWordsByClause
  intro w
  rcases decode_cases w with ⟨i, hi, hd⟩ | ⟨hop, hd⟩ | ⟨hop, hd⟩
  · have hmem := mem_formatNOps_of_row hi
    obtain ⟨hlt, hne⟩ : ¬ 6 ≤ w.toNat % 16 ∧ w.toNat % 16 ≠ 4 := by
      simp only [List.mem_cons, List.not_mem_nil, or_false] at hmem
      omega
    rw [hd, decodeFormatN_eq]
    split
    · next hz => simp [hlt, hne, hz]
    · next hz => simpa [hlt, hne, hz] using hmem
  · rw [hd, decodeFormatB_eq]
    split
    · next hz => simpa [hop] using hz
    · next hz => simpa [hop] using not_and_or.mp hz
  · have hmem : w.toNat % 16 ∉ [0, 1, 2, 3, 5] ∧ w.toNat % 16 ≠ 4 := by
      simp only [List.mem_cons, List.not_mem_nil, or_false]
      omega
    simp [hd, hop, hmem]

/-- Settles O5: each of the words is the encoding of its command (30_encoding.md R87). -/
theorem sampleWordsDecode : Obligations.SampleWordsDecode :=
  ⟨decodeOfEncode .nop rfl, decodeOfEncode .derive rfl, decodeOfEncode .encrypt rfl,
    decodeOfEncode .decrypt rfl, decodeOfEncode .clear rfl, decodeOfEncode (.getbw .dout 8 8 false) rfl,
    decodeOfEncode (.getbw .din 4 16 true) rfl⟩

end Sys2Proof

namespace Sys2Proof.Machine

/-- Settles O7: the engine's turn on a word that does not decode is the completion with ILLEGAL_COMMAND. -/
theorem illegalWordCompletesWithError : Obligations.IllegalWordCompletesWithError := by
  unfold Obligations.IllegalWordCompletesWithError
  intro s e hb hn hd
  rw [step_engine hn]
  rcases engineTurn_cases s.taken with ⟨hb', _⟩ | ⟨i, _, hd', _⟩ | ⟨_, _, _, he⟩
  · exact absurd (hb.symm.trans hb') (by decide)
  · exact nomatch hd.symm.trans hd'
  · exact he

end Sys2Proof.Machine

/-! ## The command cycle (40_command_cycle.md)

First the engine's turn by its two cases, what no command writes, and what a command does not read: the
host's side of a state, which is all that host accesses change while a command is in flight. Then runs: the
host's accesses, then the engine's turn. Then the statements. -/

namespace Sys2Proof.Machine

/-! ### The engine's turn -/

theorem engineIsNext_of_inputs {s : State} {xs : List Input} (hi : s.inputs = xs)
    (hx : xs = [] ∨ ∃ rest, xs = .engine :: rest) : s.engineIsNext = true := by
  rcases hx with rfl | ⟨rest, rfl⟩
  · simp [State.engineIsNext, hi]
  · simp [State.engineIsNext, hi]

/-- An idle engine has no step (40_command_cycle.md R103). -/
theorem engineTurn_idle {s : State} (h : s.busy = false) : engineTurn s = .next s := by
  simp [engineTurn, h]

/-- The engine's turn runs the command in flight (40_command_cycle.md R105). -/
theorem engineTurn_decoded {s : State} {i : Instr} (hb : s.busy = true) (hd : decode s.cmdLatch = .ok i) :
    engineTurn s = exec i s := by
  simp [engineTurn, engineRun, hb, hd]

/-- A completion ends with BUSY = 0 and DONE = 1 (40_command_cycle.md R104). -/
theorem complete_busy_done (s : State) (r : Except ErrorCode State) :
    (s.complete r).busy = false ∧ (s.complete r).done = true := by
  cases r with
  | ok p => exact ⟨rfl, rfl⟩
  | error c => exact ⟨rfl, rfl⟩

/-! ### What no command writes -/

/-- Everything a command may change: the result registers and the flags of its completion
(40_command_cycle.md R104, R109). -/
theorem exec_frame {i : Instr} {s t : State} (h : exec i s = .next t) :
    t = { s with busy := false, done := true, err := t.err, keyed := t.keyed, resultLo := t.resultLo,
                 resultHi := t.resultHi, skey := t.skey, siv := t.siv, dout := t.dout } := by
  rw [exec_eq_complete] at h
  cases h
  cases hr : commandResult i s with
  | error c => rfl
  | ok p => rw [commandResult_frame hr]; rfl

/-! ### What no command reads -/

/-- `s` with the host's side of `h`: CTRL.IE, DONE, COLLIDE, the inputs and what the bus returned. -/
def State.withHostSide (s h : State) : State :=
  { s with ie := h.ie, done := h.done, collide := h.collide, inputs := h.inputs, response := h.response,
           drawn := h.drawn }

theorem frameResult_withHostSide (s h : State) (f : Block → Block → List Byte → List Byte) :
    frameResult (s.withHostSide h) f = (frameResult s f).map (·.withHostSide h) := by
  simp only [frameResult, apply_ite (Except.map _)]
  rfl

/-- No command's pending writes depend on the host's side of the state (40_command_cycle.md R107). -/
theorem commandResult_withHostSide (i : Instr) (s h : State) :
    commandResult i (s.withHostSide h) = (commandResult i s).map (·.withHostSide h) := by
  cases i with
  | nop => rfl
  | derive => simp only [commandResult, deriveResult, apply_ite (Except.map _)]; rfl
  | encrypt => exact frameResult_withHostSide s h (frameEnc Config.blockCipher)
  | decrypt => exact frameResult_withHostSide s h (frameDec Config.blockCipher)
  | getbw src start n le =>
    simp only [commandResult, getbwResult, apply_ite (Except.map _)]
    cases src <;> rfl
  | clear => rfl

/-- A command run on another host's side has the same outcome; its completion still sets DONE. -/
theorem exec_withHostSide {i : Instr} {s u : State} (h : State) (hu : exec i s = .next u) :
    exec i (s.withHostSide h) = .next (u.withHostSide { h with done := true }) := by
  rw [exec_eq_complete] at hu ⊢
  cases hu
  rw [commandResult_withHostSide]
  cases commandResult i s with
  | ok p => rfl
  | error c => rfl

/-- While a command is in flight a host access changes the host's side alone (40_command_cycle.md R107). -/
theorem hostAccess_eq_withHostSide {s : State} (hb : s.busy = true) (a : HostAccess) :
    s.hostAccess a = s.withHostSide (s.hostAccess a) ∧ (s.hostAccess a).inputs = s.inputs := by
  have hframe := hostAccess_frame_of_busy hb (a := a) rfl
  have hinputs : (s.hostAccess a).inputs = s.inputs := by rw [hframe]
  refine ⟨hframe.trans ?_, hinputs⟩
  rw [State.withHostSide, hinputs]

/-! ### Runs -/

theorem runSteps_succ {s t : State} (h : step s = .next t) (n : Nat) :
    runSteps (n + 1) s = runSteps n t := by
  simp [runSteps, h]

/-- The last step of a run is a step from where the run before it ended. -/
theorem runSteps_last {n : Nat} {s t v : State} (h : runSteps n s = .next t) (hv : step t = .next v) :
    runSteps (n + 1) s = .next v := by
  induction n generalizing s with
  | zero =>
    cases h
    exact runSteps_succ hv 0
  | succ n ih =>
    cases hs : step s with
    | next r =>
      rw [runSteps_succ hs] at h ⊢
      exact ih h
    | fault r => simp [runSteps, hs] at h
    | refused r => simp [runSteps, hs] at h

/-- While a command is in flight a host access that is next changes the host's side alone. -/
theorem step_host_in_flight {s : State} {a : HostAccess} {rest : List Input} (hb : s.busy = true)
    (hr : s.resetLine = false) (hi : s.inputs = .host a :: rest) :
    ∃ h, step s = .next (s.withHostSide h) ∧ h.inputs = rest := by
  obtain ⟨hside, hinputs⟩ := hostAccess_eq_withHostSide (s := { s with inputs := rest }) hb a
  refine ⟨State.hostAccess { s with inputs := rest } a, ?_, hinputs⟩
  rw [step_cons hi, takeInput, hostTurn_released (s := { s with inputs := rest }) hr, hside]
  rfl

/-- The host accesses served while a command is in flight change the host's side alone, and the inputs that
follow them come next (40_command_cycle.md R107). -/
theorem runSteps_hosts_in_flight {s : State} {hs : List HostAccess} {rest : List Input} (hb : s.busy = true)
    (hr : s.resetLine = false) (hi : s.inputs = hs.map Input.host ++ rest) :
    ∃ h, runSteps hs.length s = .next (s.withHostSide h) ∧ h.inputs = rest := by
  induction hs generalizing s with
  | nil => exact ⟨s, rfl, hi⟩
  | cons a hs ih =>
    obtain ⟨h, hstep, hrest⟩ := step_host_in_flight hb hr hi
    obtain ⟨h', hrun, hrest'⟩ := ih (s := s.withHostSide h) hb hr hrest
    exact ⟨h', (runSteps_succ hstep hs.length).trans hrun, hrest'⟩

/-- Host accesses and engine turns: the accesses before the first engine turn, then that turn or nothing. -/
theorem inputs_split_at_engine {xs : List Input} (h : ∀ x ∈ xs, x.isHostAccess = true ∨ x = .engine) :
    ∃ (hs : List HostAccess) (rest : List Input), xs = hs.map Input.host ++ rest ∧
      (rest = [] ∨ ∃ r, rest = .engine :: r) := by
  induction xs with
  | nil => exact ⟨[], [], rfl, .inl rfl⟩
  | cons x xs ih =>
    obtain ⟨hx, hxs⟩ := List.forall_mem_cons.1 h
    cases x with
    | host a =>
      obtain ⟨hs, rest, rfl, hrest⟩ := ih hxs
      exact ⟨a :: hs, rest, rfl, hrest⟩
    | engine => exact ⟨[], _, rfl, .inr ⟨xs, rfl⟩⟩
    | bus | assertReset | releaseReset => simp [Input.isHostAccess] at hx

/-! ### The statements -/

/-- Settles O6. -/
theorem stepRunsTheDecodedCommand : Obligations.StepRunsTheDecodedCommand := by
  unfold Obligations.StepRunsTheDecodedCommand
  intro s i hb hn hd
  exact (step_engine hn).trans (engineTurn_decoded (s := s.taken) hb hd)

/-- Settles O8. -/
theorem idleEngineDoesNothing : Obligations.IdleEngineDoesNothing := by
  unfold Obligations.IdleEngineDoesNothing
  intro s hb hn
  exact (step_engine hn).trans (engineTurn_idle (s := s.taken) hb)

/-- Settles O24: a failing completion is the state with the three fields set, a successful one has
ERR = OK. -/
theorem failuresArePrecise : Obligations.FailuresArePrecise := by
  unfold Obligations.FailuresArePrecise
  intro i s
  obtain ⟨hbusy, hdone⟩ := complete_busy_done s (commandResult i s)
  refine ⟨_, exec_eq_complete i s, hbusy, hdone, fun herr => ?_⟩
  cases hr : commandResult i s with
  | error c => rfl
  | ok p =>
    rw [hr] at herr
    exact absurd (s.complete_ok_err p) herr

/-- Settles O25, by what a command may change. -/
theorem commandsKeepTheirOperands : Obligations.CommandsKeepTheirOperands := by
  unfold Obligations.CommandsKeepTheirOperands
  intro i s t h
  rw [exec_frame h]
  exact ⟨rfl, rfl, rfl, rfl, rfl, rfl, rfl, rfl⟩

/-- Settles O37. -/
theorem busyWritesAreDropped : Obligations.BusyWritesAreDropped := by
  unfold Obligations.BusyWritesAreDropped
  intro s off v hb ho
  exact hostAccess_operand_busy hb ho v

/-- Settles O59: the accesses change the host's side alone, which the command neither reads nor, DONE
excepted, writes. -/
theorem commandUsesItsLaunchOperands : Obligations.CommandUsesItsLaunchOperands := by
  unfold Obligations.CommandUsesItsLaunchOperands
  intro s u i hs rest hb hr hd hi hu
  obtain ⟨h, hrun, hinputs⟩ := runSteps_hosts_in_flight hb hr hi
  have hnext : (s.withHostSide h).engineIsNext = true := engineIsNext_of_inputs hinputs (.inr ⟨rest, rfl⟩)
  have hturn : step (s.withHostSide h) = .next (u.withHostSide { h.taken with done := true }) :=
    (stepRunsTheDecodedCommand (s.withHostSide h) i hb hnext hd).trans
      (exec_withHostSide (s := s) h.taken hu)
  obtain ⟨_, _, hlen, hmkey, hmiv, hsalt, hdin, _⟩ := commandsKeepTheirOperands i s u hu
  have hbusy : u.busy = false := by rw [exec_frame hu]
  exact ⟨_, runSteps_last hrun hturn, hbusy, rfl, rfl, rfl, rfl, rfl, rfl, rfl, rfl,
    hlen, hmkey, hmiv, hsalt, hdin, congrArg List.tail hinputs⟩

/-- Settles O60: one step for each access before the first engine turn, and one for that turn. -/
theorem launchedCommandCompletes : Obligations.LaunchedCommandCompletes := by
  unfold Obligations.LaunchedCommandCompletes
  intro s hb hr hin
  obtain ⟨hs, rest, hi, hrest⟩ := inputs_split_at_engine hin
  obtain ⟨h, hrun, hinputs⟩ := runSteps_hosts_in_flight hb hr hi
  have hnext : (s.withHostSide h).engineIsNext = true := engineIsNext_of_inputs hinputs hrest
  obtain ⟨r, hturn, _⟩ := engineTurn_complete (s := (s.withHostSide h).taken) hb
  refine ⟨hs.length + 1, by simp [hi], _, runSteps_last hrun ((step_engine hnext).trans hturn), ?_⟩
  exact complete_busy_done _ r

/-- Settles O11: NOP is the completion of no pending writes. -/
theorem nopCompletes : Obligations.NopCompletes := fun s => exec_eq_complete .nop s

/-- Settles O36: an idle block takes every write, and CMD's is the launch. -/
theorem launchTakesEveryWord : Obligations.LaunchTakesEveryWord := by
  unfold Obligations.LaunchTakesEveryWord
  intro s w hb
  exact writeAt_idle hb w (t := .cmd) rfl rfl

end Sys2Proof.Machine

/-! ## GETBW (41_bitreader.md)

First a field of whole byte groups: with LE = 0 it is the plain reading of its bits, with either LE its width
bounds it. Then the groups as bytes, in which the two byte orders are each other's reversal. Then the result
of GETBW, an equation for each check, and the statements. -/

namespace Sys2Proof.Machine

/-! ### Fields of whole byte groups -/

theorem bitsBigEndian_eq_sum (buf : Memory) (s n : Nat) :
    bitsBigEndian buf s n = (Finset.range n).sum fun k => (sbit buf (s + k)).toNat * 2 ^ (n - 1 - k) :=
  sumBelow_eq_sum n _

theorem fieldGroup_eq_sum (buf : Memory) (s k : Nat) : fieldGroup buf s k =
    (Finset.range 8).sum fun t => (sbit buf (s + 8 * k + t)).toNat * 2 ^ (7 - t) :=
  bitsBigEndian_eq_sum buf (s + 8 * k) 8

theorem fieldGroup_lt (buf : Memory) (s k : Nat) : fieldGroup buf s k < 256 :=
  bitsBigEndian_lt buf (s + 8 * k) 8

/-- Byte groups with the first one most significant are the plain reading of their bits. -/
theorem sum_fieldGroup_big (buf : Memory) (s m : Nat) :
    (Finset.range m).sum (fun k => fieldGroup buf s k * 2 ^ (8 * (m - 1 - k))) =
      bitsBigEndian buf s (8 * m) := by
  induction m with
  | zero => rfl
  | succ m ih =>
    have hshift : ∀ k ∈ Finset.range m, fieldGroup buf s k * 2 ^ (8 * (m + 1 - 1 - k)) =
        fieldGroup buf s k * 2 ^ (8 * (m - 1 - k)) * 2 ^ 8 := by
      intro k hk
      have := Finset.mem_range.1 hk
      rw [show 8 * (m + 1 - 1 - k) = 8 * (m - 1 - k) + 8 by omega, Nat.pow_add, Nat.mul_assoc]
    calc (Finset.range (m + 1)).sum (fun k => fieldGroup buf s k * 2 ^ (8 * (m + 1 - 1 - k)))
        = bitsBigEndian buf s (8 * m) * 2 ^ 8 + fieldGroup buf s m := by
          rw [Finset.sum_range_succ, Finset.sum_congr rfl hshift, ← Finset.sum_mul, ih]
          simp
      _ = bitsBigEndian buf s (8 * (m + 1)) := (bitsBigEndian_add buf s (8 * m) 8).symm

/-- Byte groups with the first one least significant are bounded by their width. -/
theorem sum_fieldGroup_little_lt (buf : Memory) (s m : Nat) :
    (Finset.range m).sum (fun k => fieldGroup buf s k * 2 ^ (8 * k)) < 2 ^ (8 * m) := by
  induction m with
  | zero => simp
  | succ m ih =>
    have hg := Nat.mul_le_mul_right (2 ^ (8 * m)) (Nat.le_of_lt_succ (fieldGroup_lt buf s m))
    rw [Finset.sum_range_succ, Nat.mul_succ, Nat.pow_add]
    omega

/-- With LE = 0 the first byte group is the most significant (R121). -/
theorem bitword_big_eq_sum (buf : Memory) (s : Nat) {n : Nat} (h : 8 < n) : bitword buf s n false =
    (Finset.range (n / 8)).sum fun k => fieldGroup buf s k * 2 ^ (8 * (n / 8 - 1 - k)) :=
  (bitword_big buf s n (Nat.not_le.2 h)).trans (sumBelow_eq_sum _ _)

/-- With LE = 1 the first byte group is the least significant (R121). -/
theorem bitword_little_eq_sum (buf : Memory) (s : Nat) {n : Nat} (h : 8 < n) : bitword buf s n true =
    (Finset.range (n / 8)).sum fun k => fieldGroup buf s k * 2 ^ (8 * k) :=
  (bitword_little buf s n (Nat.not_le.2 h)).trans (sumBelow_eq_sum _ _)

/-- With `le = 0` a field of whole byte groups is the plain reading of its bits (R124). -/
theorem bitword_big_eq_bitsBigEndian (buf : Memory) (s : Nat) {n : Nat} (h : 8 ∣ n) :
    bitword buf s n false = bitsBigEndian buf s n := by
  rcases Nat.lt_or_ge 8 n with hn | hn
  · rw [bitword_big_eq_sum buf s hn, sum_fieldGroup_big, Nat.mul_div_cancel' h]
  · exact bitword_small buf s n false hn

theorem le_eight_or_dvd_of_mem_bitlenValid {n : Nat} (h : n ∈ Config.bitlenValid) : n ≤ 8 ∨ 8 ∣ n := by
  revert n
  decide

/-- A field of a valid width is bounded by it (R126). -/
theorem bitword_lt (buf : Memory) (s : Nat) {n : Nat} (le : Bool) (h : n ∈ Config.bitlenValid) :
    bitword buf s n le < 2 ^ n := by
  rcases Nat.lt_or_ge 8 n with hn | hn
  · have hd : 8 ∣ n := (le_eight_or_dvd_of_mem_bitlenValid h).resolve_left (Nat.not_le.2 hn)
    cases le with
    | false => exact bitword_big_eq_bitsBigEndian buf s hd ▸ bitsBigEndian_lt buf s n
    | true =>
      have hlt := sum_fieldGroup_little_lt buf s (n / 8)
      rwa [← bitword_little_eq_sum buf s hn, Nat.mul_div_cancel' hd] at hlt
  · exact bitword_small buf s n le hn ▸ bitsBigEndian_lt buf s n

/-- RESULT_LO holds a field of a valid width whole. -/
theorem toNat_ofNat_bitword (buf : Memory) (s : Nat) {n : Nat} (le : Bool) (h : n ∈ Config.bitlenValid) :
    (BitVec.ofNat 32 (bitword buf s n le)).toNat = bitword buf s n le := by
  have hle : n ≤ 32 := by revert n; decide
  exact Nat.mod_eq_of_lt (Nat.lt_of_lt_of_le (bitword_lt buf s le h) (Nat.pow_le_pow_right (by decide) hle))

/-! ### The two byte orders -/

/-- Byte group `k` of a field as a byte. -/
def fieldByte (buf : Memory) (s k : Nat) : Byte := BitVec.ofNat 8 (fieldGroup buf s k)

@[simp] theorem toNat_fieldByte (buf : Memory) (s k : Nat) :
    (fieldByte buf s k).toNat = fieldGroup buf s k :=
  Nat.mod_eq_of_lt (fieldGroup_lt buf s k)

/-- The number that two bytes spell, the first on top. -/
theorem toNat_append_two_bytes (x y : Byte) : (x ++ y : BitVec 16).toNat = x.toNat * 256 + y.toNat := by
  rw [BitVec.toNat_append, ← Nat.shiftLeft_add_eq_or_of_lt y.isLt, Nat.shiftLeft_eq]

/-- R124's byte swap of 16 bits exchanges the two bytes. -/
theorem swapBytes_append (x y : Byte) :
    (((x ++ y : BitVec 16) &&& 0xFF#16) <<< 8 ||| (x ++ y : BitVec 16) >>> 8) = y ++ x := by
  apply BitVec.eq_of_getLsbD_eq
  intro j hj
  simp only [BitVec.getLsbD_or, BitVec.getLsbD_shiftLeft, BitVec.getLsbD_and, BitVec.getLsbD_ushiftRight,
    BitVec.getLsbD_append]
  rcases Nat.lt_or_ge j 8 with hlow | hhigh
  · simp [hlow]
  · have hmask : (0xFF#16).getLsbD (j - 8) = true := by interval_cases j <;> rfl
    simp [hmask, Nat.not_lt.2 hhigh, hj, BitVec.getLsbD_of_ge x j hhigh, show j - 8 < 8 by omega]

theorem bitword_sixteen_big (buf : Memory) (s : Nat) :
    bitword buf s 16 false = (fieldByte buf s 0 ++ fieldByte buf s 1 : BitVec 16).toNat := by
  rw [bitword_big_eq_sum buf s (by decide), toNat_append_two_bytes]
  simp [Finset.sum_range_succ]

theorem bitword_sixteen_little (buf : Memory) (s : Nat) :
    bitword buf s 16 true = (fieldByte buf s 1 ++ fieldByte buf s 0 : BitVec 16).toNat := by
  rw [bitword_little_eq_sum buf s (by decide), toNat_append_two_bytes]
  simp [Finset.sum_range_succ, Nat.add_comm]

theorem bitword_thirtyTwo_big (buf : Memory) (s : Nat) : bitword buf s 32 false =
    (Quad.toWord ⟨fieldByte buf s 3, fieldByte buf s 2, fieldByte buf s 1, fieldByte buf s 0⟩).toNat := by
  rw [bitword_big_eq_sum buf s (by decide), Quad.toWord_eq_append, toNat_append_bytes]
  simp [Finset.sum_range_succ]

theorem bitword_thirtyTwo_little (buf : Memory) (s : Nat) : bitword buf s 32 true =
    (Quad.toWord ⟨fieldByte buf s 0, fieldByte buf s 1, fieldByte buf s 2, fieldByte buf s 3⟩).toNat := by
  rw [bitword_little_eq_sum buf s (by decide), Quad.toWord_eq_append, toNat_append_bytes]
  simp only [Finset.sum_range_succ, Finset.sum_range_zero, toNat_fieldByte]
  omega

/-- The byte lanes of a bus word in the other order spell the reversed quad. -/
theorem reverseLanes_toWord (q : Quad) :
    q.toWord.extractLsb' 0 8 ++ q.toWord.extractLsb' 8 8 ++ q.toWord.extractLsb' 16 8 ++
      q.toWord.extractLsb' 24 8 = Quad.toWord ⟨q.b3, q.b2, q.b1, q.b0⟩ := by
  have lane := q.lane_toWord
  rw [lane 0 (by decide), lane 1 (by decide), lane 2 (by decide), lane 3 (by decide), Quad.toWord_eq_append]
  rfl

/-! ### The result of GETBW -/

theorem exec_getbw (s : State) (src : BufSel) (start n : Nat) (le : Bool) :
    exec (.getbw src start n le) s = .next (s.complete (getbwResult s src start n le)) :=
  exec_eq_complete _ s

theorem getbwResult_invalidArgument (s : State) (src : BufSel) (start : Nat) {n : Nat} (le : Bool)
    (h : n = 0 ∨ 32 < n) : getbwResult s src start n le = .error .invalidArgument := if_pos h

theorem getbwResult_unsupportedWidth (s : State) (src : BufSel) (start : Nat) {n : Nat} (le : Bool)
    (h : (9 ≤ n ∧ n ≤ 15) ∨ (17 ≤ n ∧ n ≤ 31)) :
    getbwResult s src start n le = .error .unsupportedWidth := by
  rw [getbwResult, if_neg (by omega), if_pos h]

/-- A valid width passes both checks of the width: only the range is left (R120). -/
theorem getbwResult_of_mem_bitlenValid (s : State) (src : BufSel) (start : Nat) {n : Nat} (le : Bool)
    (h : n ∈ Config.bitlenValid) : getbwResult s src start n le =
      if 8 * s.frameLen < start + n then .error .outOfRange
      else .ok { s with resultLo := BitVec.ofNat 32 (bitword (s.buffer src) start n le), resultHi := 0#32 } := by
  obtain ⟨harg, hwidth⟩ : ¬(n = 0 ∨ 32 < n) ∧ ¬((9 ≤ n ∧ n ≤ 15) ∨ (17 ≤ n ∧ n ≤ 31)) := by
    revert n
    decide
  rw [getbwResult, if_neg harg, if_neg hwidth]

/-- For `n ≤ 8` the field does not depend on `le` (R123). -/
theorem bitword_le_irrel (buf : Memory) (s : Nat) {n : Nat} (h : n ≤ 8) (le le' : Bool) :
    bitword buf s n le = bitword buf s n le' :=
  (bitword_small buf s n le h).trans (bitword_small buf s n le' h).symm

/-! ### The statements -/

/-- Settles O19: the result is the field, which RESULT_LO holds whole; each reading is the sum of R121. -/
theorem getbwExtractsTheField : Obligations.GetbwExtractsTheField := by
  unfold Obligations.GetbwExtractsTheField
  intro s src start n le hn hrange
  have hres := getbwResult_of_mem_bitlenValid s src start le hn
  rw [if_neg (Nat.not_lt.2 hrange)] at hres
  have hv := toNat_ofNat_bitword (s.buffer src) start le hn
  refine ⟨_, by rw [exec_getbw, hres]; rfl, ?_, ?_, ?_⟩
  · intro h8
    rw [hv, bitword_small _ _ _ _ h8, bitsBigEndian_eq_sum]
    cases src <;> rfl
  · rintro h8 rfl
    rw [hv, bitword_big_eq_sum _ _ h8]
    simp only [fieldGroup_eq_sum]
    cases src <;> rfl
  · rintro h8 rfl
    rw [hv, bitword_little_eq_sum _ _ h8]
    simp only [fieldGroup_eq_sum]
    cases src <;> rfl

/-- Settles O21: a completion with ERR = OK comes from the one case that stores a field. -/
theorem getbwResultIsBounded : Obligations.GetbwResultIsBounded := by
  unfold Obligations.GetbwResultIsBounded
  intro s t src start n le hexec herr
  rw [exec_getbw] at hexec
  cases hexec
  rcases getbwResult_cases s src start n le with ⟨_, he⟩ | ⟨_, he⟩ | ⟨_, _, he⟩ | ⟨hn, _, he⟩ <;>
    rw [he] at herr ⊢
  case inr.inr.inr =>
    have hlt := bitword_lt (s.buffer src) start le hn
    rw [← toNat_ofNat_bitword (s.buffer src) start le hn] at hlt
    exact ⟨hlt, rfl⟩
  all_goals cases herr

/-- Settles O22: both readings are the field's bytes, in the one order and in the other. -/
theorem littleEndianReversesBytes : Obligations.LittleEndianReversesBytes := by
  unfold Obligations.LittleEndianReversesBytes
  intro buf s
  refine ⟨fun n hn => ?_, ?_, ?_⟩
  · have hd : 8 ∣ n := by omega
    rw [bitword_big_eq_bitsBigEndian buf s hd, bitsBigEndian_eq_sum]
  · dsimp only
    rw [bitword_sixteen_big, BitVec.ofNat_toNat, BitVec.setWidth_eq, swapBytes_append, bitword_sixteen_little]
  · dsimp only
    rw [bitword_thirtyTwo_big, BitVec.ofNat_toNat, BitVec.setWidth_eq, reverseLanes_toWord,
      bitword_thirtyTwo_little]

/-- Settles O20, check by check. -/
theorem getbwRefusals : Obligations.GetbwRefusals := by
  unfold Obligations.GetbwRefusals
  intro s src start n le
  have refused : ∀ {c : ErrorCode}, getbwResult s src start n le = .error c →
      exec (.getbw src start n le) s = .next (s.failed c) := by
    intro c h
    rw [exec_getbw, h]
    rfl
  refine ⟨fun h => refused (getbwResult_invalidArgument s src start le h),
    fun h => refused (getbwResult_unsupportedWidth s src start le h), fun hn hrange => refused ?_⟩
  rw [getbwResult_of_mem_bitlenValid s src start le hn]
  exact if_pos hrange

/-- Settles O23: GETBW reads `le` in the field alone. -/
theorem littleEndianIgnoredForBytes : Obligations.LittleEndianIgnoredForBytes := by
  unfold Obligations.LittleEndianIgnoredForBytes
  intro n hn
  refine ⟨fun buf s => bitword_le_irrel buf s hn false true, fun s src start => ?_⟩
  have hres : getbwResult s src start n true = getbwResult s src start n false := by
    rw [getbwResult, getbwResult, bitword_le_irrel (s.buffer src) start hn true false]
  rw [exec_getbw, exec_getbw, hres]

end Sys2Proof.Machine

/-! ## Key derivation (42_key_derivation.md)

First the bytes of a derived value: a salted byte is a sum modulo 255 and the others are master bytes. The
corner cases of R143 are the salted byte at particular sums. Then the statements, with the commands' results
from the completion of their pseudocode. -/

namespace Sys2Proof.Machine

/-! ### The bytes of a derived value -/

/-- A byte that the salt is added to (R141). -/
theorem deriveBlock_byte_salted (M : Block) (S : Salt) {i : Nat} (hi : i < 6) :
    (deriveBlock M S).byte i = BitVec.ofNat 8 (((M.byte i).toNat + (S.byte i).toNat) % 255) := by
  rw [deriveBlock, Block.byte_ofFn _ i (by omega), if_pos hi]

/-- A byte that the salt does not reach (R141). -/
theorem deriveBlock_byte_copied (M : Block) (S : Salt) {i : Nat} (h6 : 6 ≤ i) (h16 : i < 16) :
    (deriveBlock M S).byte i = M.byte i := by
  rw [deriveBlock, Block.byte_ofFn _ i h16, if_neg (Nat.not_lt.2 h6)]

/-- The residue modulo 255 fits the byte, so nothing more is lost. -/
theorem deriveBlock_byte_toNat (M : Block) (S : Salt) {i : Nat} (hi : i < 6) :
    ((deriveBlock M S).byte i).toNat = ((M.byte i).toNat + (S.byte i).toNat) % 255 := by
  rw [deriveBlock_byte_salted M S hi, BitVec.toNat_ofNat]
  omega

theorem deriveBlock_byte_of_sum {M : Block} {S : Salt} {i n : Nat} (hi : i < 6)
    (hsum : (M.byte i).toNat + (S.byte i).toNat = n) :
    (deriveBlock M S).byte i = BitVec.ofNat 8 (n % 255) := by
  rw [deriveBlock_byte_salted M S hi, hsum]

theorem deriveBlock_byte_ne_ff (M : Block) (S : Salt) {i : Nat} (hi : i < 6) :
    (deriveBlock M S).byte i ≠ 0xFF#8 := by
  intro hff
  have hlt : ((deriveBlock M S).byte i).toNat < 255 := by
    rw [deriveBlock_byte_toNat M S hi]
    exact Nat.mod_lt _ (by decide)
  rw [hff] at hlt
  exact absurd hlt (by decide)

/-- The salt byte 0xFF is 0 modulo 255, and a master byte below 0xFF is its own residue. -/
theorem deriveBlock_byte_of_salt_ff {M : Block} {S : Salt} {i : Nat} (hi : i < 6)
    (hS : S.byte i = 0xFF#8) (hM : M.byte i ≠ 0xFF#8) : (deriveBlock M S).byte i = M.byte i := by
  have hlt : (M.byte i).toNat < 255 := by bv_omega
  apply BitVec.eq_of_toNat_eq
  calc ((deriveBlock M S).byte i).toNat
      = ((M.byte i).toNat + 255) % 255 := by rw [deriveBlock_byte_toNat M S hi, hS]; rfl
    _ = (M.byte i).toNat := by rw [Nat.add_mod_right, Nat.mod_eq_of_lt hlt]

/-! ### The statements -/

/-- Settles O12: the session values are the derived blocks of the two master values. -/
theorem deriveWritesTheSession : Obligations.DeriveWritesTheSession := by
  unfold Obligations.DeriveWritesTheSession
  intro s hk
  refine ⟨deriveBlock s.mkey s.salt, deriveBlock s.miv s.salt, ?_,
    fun _ => deriveBlock_byte_toNat _ _, fun _ => deriveBlock_byte_toNat _ _,
    fun _ => deriveBlock_byte_copied _ _, fun _ => deriveBlock_byte_copied _ _⟩
  rw [exec_eq_complete, commandResult, deriveResult_ok hk]
  rfl

/-- Settles O13. -/
theorem deriveTwiceFails : Obligations.DeriveTwiceFails := by
  unfold Obligations.DeriveTwiceFails
  intro s hk
  rw [exec_eq_complete, commandResult, deriveResult_error hk]
  rfl

/-- Settles O14: master byte 0xFF with salt byte 0 is the case of the sum 255. -/
theorem derivationCorners : Obligations.DerivationCorners := by
  unfold Obligations.DerivationCorners
  intro M S
  refine ⟨fun i hi => deriveBlock_byte_ne_ff M S hi, fun i hi hsum => deriveBlock_byte_of_sum hi hsum,
    fun i hi hsum => deriveBlock_byte_of_sum hi hsum, fun i hi hM hS => ?_,
    fun i hi hS hM => deriveBlock_byte_of_salt_ff hi hS hM,
    fun i hi hsum => deriveBlock_byte_of_sum hi hsum, fun i h6 h16 => deriveBlock_byte_copied M S h6 h16⟩
  have hsum : (M.byte i).toNat + (S.byte i).toNat = 255 := by rw [hM, hS]; rfl
  exact deriveBlock_byte_of_sum hi hsum

/-- Settles O15: the session values become the zero block. -/
theorem clearEndsTheSession : Obligations.ClearEndsTheSession := by
  unfold Obligations.ClearEndsTheSession
  exact fun s => ⟨Block.zero, exec_eq_complete .clear s, Block.byte_zero⟩

end Sys2Proof.Machine

/-! ## The block cipher (44_block_primitive.md)

First MixColumns and its inverse on one column: both commute with a rotation of the column, so the byte-0
entry of the product of their matrices stands for all four. Then a round and its inverse, and the cipher in
both directions. -/

namespace Sys2Proof.Machine

/-! ### One column -/

/-- The column moved up by one row. -/
def rotColumn (a : Quad) : Quad := ⟨a.b1, a.b2, a.b3, a.b0⟩

/-- Equality of columns by byte 0, where `f` commutes with the rotation of columns. -/
theorem eq_self_of_b0_of_rotColumn {f : Quad → Quad} (h0 : ∀ a, (f a).b0 = a.b0)
    (hrot : ∀ a, f (rotColumn a) = rotColumn (f a)) (a : Quad) : f a = a := by
  have hb1 : ∀ a, (f a).b1 = a.b1 := fun a => by
    have h := h0 (rotColumn a)
    rwa [hrot] at h
  have hb2 : ∀ a, (f a).b2 = a.b2 := fun a => by
    have h := hb1 (rotColumn a)
    rwa [hrot] at h
  have hb3 : (f a).b3 = a.b3 := by
    have h := hb2 (rotColumn a)
    rwa [hrot] at h
  exact Quad.ext_bytes (h0 a) (hb1 a) (hb2 a) hb3

theorem mixColumn_rotColumn (a : Quad) : mixColumn (rotColumn a) = rotColumn (mixColumn a) := by
  simp only [mixColumn, rotColumn, Quad.mk.injEq]
  refine ⟨?_, ?_, ?_, ?_⟩ <;> ac_rfl

theorem invMixColumn_rotColumn (a : Quad) : invMixColumn (rotColumn a) = rotColumn (invMixColumn a) := by
  simp only [invMixColumn, rotColumn, Quad.mk.injEq]
  refine ⟨?_, ?_, ?_, ?_⟩ <;> ac_rfl

theorem invMixColumn_mixColumn_b0 (a : Quad) : (invMixColumn (mixColumn a)).b0 = a.b0 := by
  obtain ⟨h0, -, -, -⟩ := gfMul_const_comp a.b0
  obtain ⟨-, h1, -, -⟩ := gfMul_const_comp a.b1
  obtain ⟨-, -, h2, -⟩ := gfMul_const_comp a.b2
  obtain ⟨-, -, -, h3⟩ := gfMul_const_comp a.b3
  simp only [invMixColumn, mixColumn, gfMul_xor]
  calc _ = (gfMul 14 (gfMul 2 a.b0) ^^^ gfMul 11 a.b0 ^^^ gfMul 13 a.b0 ^^^ gfMul 9 (gfMul 3 a.b0)) ^^^
        (gfMul 14 (gfMul 3 a.b1) ^^^ gfMul 11 (gfMul 2 a.b1) ^^^ gfMul 13 a.b1 ^^^ gfMul 9 a.b1) ^^^
        (gfMul 14 a.b2 ^^^ gfMul 11 (gfMul 3 a.b2) ^^^ gfMul 13 (gfMul 2 a.b2) ^^^ gfMul 9 a.b2) ^^^
        (gfMul 14 a.b3 ^^^ gfMul 11 a.b3 ^^^ gfMul 13 (gfMul 3 a.b3) ^^^ gfMul 9 (gfMul 2 a.b3)) := by
          ac_rfl
    _ = a.b0 := by rw [h0, h1, h2, h3]; simp only [BitVec.xor_zero]

theorem mixColumn_invMixColumn_b0 (a : Quad) : (mixColumn (invMixColumn a)).b0 = a.b0 := by
  obtain ⟨h0, -, -, -⟩ := gfMul_const_comp_inv a.b0
  obtain ⟨-, h1, -, -⟩ := gfMul_const_comp_inv a.b1
  obtain ⟨-, -, h2, -⟩ := gfMul_const_comp_inv a.b2
  obtain ⟨-, -, -, h3⟩ := gfMul_const_comp_inv a.b3
  simp only [invMixColumn, mixColumn, gfMul_xor]
  calc _ = (gfMul 2 (gfMul 14 a.b0) ^^^ gfMul 3 (gfMul 9 a.b0) ^^^ gfMul 13 a.b0 ^^^ gfMul 11 a.b0) ^^^
        (gfMul 2 (gfMul 11 a.b1) ^^^ gfMul 3 (gfMul 14 a.b1) ^^^ gfMul 9 a.b1 ^^^ gfMul 13 a.b1) ^^^
        (gfMul 2 (gfMul 13 a.b2) ^^^ gfMul 3 (gfMul 11 a.b2) ^^^ gfMul 14 a.b2 ^^^ gfMul 9 a.b2) ^^^
        (gfMul 2 (gfMul 9 a.b3) ^^^ gfMul 3 (gfMul 13 a.b3) ^^^ gfMul 11 a.b3 ^^^ gfMul 14 a.b3) := by
          ac_rfl
    _ = a.b0 := by rw [h0, h1, h2, h3]; simp only [BitVec.xor_zero]

/-- InvMixColumns undoes MixColumns on a column (R188). -/
@[simp] theorem invMixColumn_mixColumn (a : Quad) : invMixColumn (mixColumn a) = a :=
  eq_self_of_b0_of_rotColumn (f := fun a => invMixColumn (mixColumn a)) invMixColumn_mixColumn_b0
    (fun a => by rw [mixColumn_rotColumn, invMixColumn_rotColumn]) a

/-- MixColumns undoes InvMixColumns on a column (R188). -/
@[simp] theorem mixColumn_invMixColumn (a : Quad) : mixColumn (invMixColumn a) = a :=
  eq_self_of_b0_of_rotColumn (f := fun a => mixColumn (invMixColumn a)) mixColumn_invMixColumn_b0
    (fun a => by rw [invMixColumn_rotColumn, mixColumn_rotColumn]) a

/-! ### Rounds -/

@[simp] theorem invMixColumns_mixColumns (x : Block) : invMixColumns (mixColumns x) = x := by
  simp [invMixColumns, mixColumns, Block.mapQuads]

@[simp] theorem mixColumns_invMixColumns (x : Block) : mixColumns (invMixColumns x) = x := by
  simp [invMixColumns, mixColumns, Block.mapQuads]

@[simp] theorem addRoundKey_addRoundKey (keys : List Block) (r : Nat) (x : Block) :
    addRoundKey keys r (addRoundKey keys r x) = x := Block.xor_self_right x _

/-- A round of the inverse cipher takes the SubBytes and ShiftRows of the next round back to those of this
one (R189, R190). -/
theorem aesInvRound_aesRound (keys : List Block) (x : Block) (r : Nat) :
    aesInvRound keys (shiftRows (subBytes (aesRound keys x r))) r = shiftRows (subBytes x) := by
  simp [aesInvRound, aesRound]

theorem aesRound_aesInvRound (keys : List Block) (y : Block) (r : Nat) :
    aesRound keys (invSubBytes (invShiftRows (aesInvRound keys y r))) r = invSubBytes (invShiftRows y) := by
  simp [aesInvRound, aesRound]

/-- Rounds undone one by one, the last one first; `φ` is what stands between the two directions. -/
theorem foldl_reverse_undo {f g : Block → Nat → Block} {φ : Block → Block}
    (h : ∀ x r, g (φ (f x r)) r = φ x) (rs : List Nat) (x : Block) :
    rs.reverse.foldl g (φ (rs.foldl f x)) = φ x := by
  induction rs generalizing x with
  | nil => rfl
  | cons r rs ih =>
    rw [List.foldl_cons, List.reverse_cons, List.foldl_append, ih]
    exact h x r

/-! ### The cipher -/

theorem aesDecrypt_aesEncrypt (K X : Block) : aesDecrypt K (aesEncrypt K X) = X := by
  have rounds := foldl_reverse_undo (φ := fun x => shiftRows (subBytes x))
    (aesInvRound_aesRound (roundKeys K)) [1, 2, 3, 4, 5, 6, 7, 8, 9] (addRoundKey (roundKeys K) 0 X)
  rw [show [1, 2, 3, 4, 5, 6, 7, 8, 9].reverse = [9, 8, 7, 6, 5, 4, 3, 2, 1] from rfl] at rounds
  rw [aesDecrypt, aesEncrypt, addRoundKey_addRoundKey, rounds, invShiftRows_shiftRows,
    invSubBytes_subBytes, addRoundKey_addRoundKey]

theorem aesEncrypt_aesDecrypt (K Y : Block) : aesEncrypt K (aesDecrypt K Y) = Y := by
  have rounds := foldl_reverse_undo (φ := fun y => invSubBytes (invShiftRows y))
    (aesRound_aesInvRound (roundKeys K)) [9, 8, 7, 6, 5, 4, 3, 2, 1] (addRoundKey (roundKeys K) 10 Y)
  rw [show [9, 8, 7, 6, 5, 4, 3, 2, 1].reverse = [1, 2, 3, 4, 5, 6, 7, 8, 9] from rfl] at rounds
  rw [aesEncrypt, aesDecrypt, addRoundKey_addRoundKey, rounds, subBytes_invSubBytes,
    shiftRows_invShiftRows, addRoundKey_addRoundKey]

end Sys2Proof.Machine

/-! ## The frame cipher (43_frame_cipher.md)

First the frame functions: their bytes, and each undoing the other from the single-block steps. Then the two
commands, which differ only in their frame function: what the checks refuse, and what the bytes of DOUT are
after the store. Then the statements. -/

namespace Sys2Proof.Machine

/-! ### The bytes of a frame -/

/-- Byte `j` of the working copy after the block at `o` was encrypted (R162). -/
theorem getD_encryptAt (c : BlockCipher) (K IV : Block) {o : Nat} {w : List Byte} (h : o + 16 ≤ w.length)
    (j : Nat) : (encryptAt c K IV o w).getD j 0#8 =
      if o ≤ j ∧ j < o + 16 then (cbcEnc c K IV (blockAt w o)).byte (j - o) else w.getD j 0#8 :=
  getD_putBlock w o _ h j

/-- Byte `j` of the working copy after the block at `o` was decrypted (R164). -/
theorem getD_decryptAt (c : BlockCipher) (K IV : Block) {o : Nat} {w : List Byte} (h : o + 16 ≤ w.length)
    (j : Nat) : (decryptAt c K IV o w).getD j 0#8 =
      if o ≤ j ∧ j < o + 16 then (cbcDec c K IV (blockAt w o)).byte (j - o) else w.getD j 0#8 :=
  getD_putBlock w o _ h j

/-- `frame_enc` leaves the bytes between the leading and the trailing block (R167). -/
theorem getD_frameEnc_middle (c : BlockCipher) (K IV : Block) {x : List Byte} {j : Nat} (h : 16 ≤ j)
    (hj : j + 16 < x.length) : (frameEnc c K IV x).getD j 0#8 = x.getD j 0#8 := by
  have hlen := length_encryptAt c K IV 0 x (by omega)
  rw [frameEnc_long c K IV x (by omega), getD_encryptAt c K IV (by omega), if_neg (by omega),
    getD_encryptAt c K IV (by omega), if_neg (by omega)]

/-- `frame_dec` leaves the bytes between the leading and the trailing block (R167). -/
theorem getD_frameDec_middle (c : BlockCipher) (K IV : Block) {y : List Byte} {j : Nat} (h : 16 ≤ j)
    (hj : j + 16 < y.length) : (frameDec c K IV y).getD j 0#8 = y.getD j 0#8 := by
  have hlen := length_decryptAt c K IV (y.length - 16) y (by omega)
  rw [frameDec_long c K IV y (by omega), getD_decryptAt c K IV (by omega), if_neg (by omega),
    getD_decryptAt c K IV (by omega), if_neg (by omega)]

/-! ### The frame functions undo each other -/

theorem cbcDec_cbcEnc {c : BlockCipher} (hDE : ∀ K X, c.D K (c.E K X) = X) (K IV P : Block) :
    cbcDec c K IV (cbcEnc c K IV P) = P := by
  rw [cbcDec, cbcEnc, hDE, Block.xor_self_right]

theorem cbcEnc_cbcDec {c : BlockCipher} (hED : ∀ K X, c.E K (c.D K X) = X) (K IV C : Block) :
    cbcEnc c K IV (cbcDec c K IV C) = C := by
  rw [cbcEnc, cbcDec, Block.xor_self_right, hED]

theorem decryptAt_encryptAt {c : BlockCipher} (hDE : ∀ K X, c.D K (c.E K X) = X) (K IV : Block) {o : Nat}
    {w : List Byte} (h : o + 16 ≤ w.length) : decryptAt c K IV o (encryptAt c K IV o w) = w :=
  putBlock_undo _ _ (cbcDec_cbcEnc hDE K IV) w o h

theorem encryptAt_decryptAt {c : BlockCipher} (hED : ∀ K X, c.E K (c.D K X) = X) (K IV : Block) {o : Nat}
    {w : List Byte} (h : o + 16 ≤ w.length) : encryptAt c K IV o (decryptAt c K IV o w) = w :=
  putBlock_undo _ _ (cbcEnc_cbcDec hED K IV) w o h

/-- `frame_dec` undoes `frame_enc`: the trailing block was the last one encrypted and is the first one
decrypted (R166). -/
theorem frameDec_frameEnc {c : BlockCipher} (hDE : ∀ K X, c.D K (c.E K X) = X) (K IV : Block)
    {x : List Byte} (h : 16 ≤ x.length) : frameDec c K IV (frameEnc c K IV x) = x := by
  have hlen := length_frameEnc c K IV x h
  have hlead := length_encryptAt c K IV 0 x (by omega)
  by_cases hl : 16 < x.length
  · rw [frameDec_long c K IV _ (by omega), hlen, frameEnc_long c K IV x hl,
      decryptAt_encryptAt hDE K IV (by omega), decryptAt_encryptAt hDE K IV (by omega)]
  · rw [frameDec_short c K IV _ (by omega), frameEnc_short c K IV x hl,
      decryptAt_encryptAt hDE K IV (by omega)]

/-- `frame_enc` undoes `frame_dec` (R166). -/
theorem frameEnc_frameDec {c : BlockCipher} (hED : ∀ K X, c.E K (c.D K X) = X) (K IV : Block)
    {y : List Byte} (h : 16 ≤ y.length) : frameEnc c K IV (frameDec c K IV y) = y := by
  have hlen := length_frameDec c K IV y h
  by_cases hl : 16 < y.length
  · have htrail := length_decryptAt c K IV (y.length - 16) y (by omega)
    rw [frameEnc_long c K IV _ (by omega), hlen, frameDec_long c K IV y hl,
      encryptAt_decryptAt hED K IV (by omega), encryptAt_decryptAt hED K IV (by omega)]
  · rw [frameEnc_short c K IV _ (by omega), frameDec_short c K IV y hl,
      encryptAt_decryptAt hED K IV (by omega)]

/-! ### The input frame -/

theorem Memory.length_frame (m : Memory) (n : Nat) : (Memory.frame m n).length = n := by
  rw [Memory.frame, List.length_map, List.length_range]

theorem Memory.getD_frame (m : Memory) {n j : Nat} (h : j < n) :
    (Memory.frame m n).getD j 0#8 = Memory.read m j := by
  simp [List.getD_eq_getElem?_getD, h]

/-- A buffer whose first bytes are those of `bs` has `bs` as its frame. -/
theorem Memory.frame_eq_of_read {m : Memory} {bs : List Byte}
    (h : ∀ j < bs.length, Memory.read m j = bs.getD j 0#8) : Memory.frame m bs.length = bs := by
  refine frame_ext (Memory.length_frame m _) fun j hj => ?_
  rw [Memory.length_frame] at hj
  rw [Memory.getD_frame m hj, h j hj]

theorem Memory.frame_congr {m m' : Memory} {n : Nat} (h : ∀ j < n, Memory.read m j = Memory.read m' j) :
    Memory.frame m n = Memory.frame m' n :=
  List.map_congr_left fun j hj => h j (List.mem_range.1 hj)

/-! ### The two commands -/

/-- `f` is the frame function that command `i` runs (R163, R165), and it keeps the length (R167). -/
structure RunsFrame (i : Instr) (f : Block → Block → List Byte → List Byte) : Prop where
  result : ∀ s, commandResult i s = frameResult s f
  length : ∀ K IV x, 16 ≤ x.length → (f K IV x).length = x.length

theorem runsFrame_encrypt : RunsFrame .encrypt (frameEnc Config.blockCipher) :=
  ⟨fun _ => rfl, length_frameEnc Config.blockCipher⟩

theorem runsFrame_decrypt : RunsFrame .decrypt (frameDec Config.blockCipher) :=
  ⟨fun _ => rfl, length_frameDec Config.blockCipher⟩

/-- The frame that `f` makes of the input frame under the session key and IV. -/
def State.frameOut (s : State) (f : Block → Block → List Byte → List Byte) : List Byte :=
  f s.skey s.siv (Memory.frame s.din s.len.toNat)

/-- The completion that stores that frame at the start of DOUT (R163, R165). -/
def State.storeFrame (s : State) (f : Block → Block → List Byte → List Byte) : State :=
  { s with dout := Memory.writeBytes s.dout 0 (s.frameOut f), err := .ok, busy := false, done := true }

section
variable {i : Instr} {f : Block → Block → List Byte → List Byte} {s : State}

theorem RunsFrame.exec_notKeyed (hf : RunsFrame i f) (hk : s.keyed = false) :
    exec i s = .next (s.failed .notKeyed) := by
  rw [exec_eq_complete, hf.result, frameResult_notKeyed f hk]
  rfl

theorem RunsFrame.exec_short (hf : RunsFrame i f) (hk : s.keyed = true) (hl : s.len.toNat < 16) :
    exec i s = .next (s.failed .invalidArgument) := by
  rw [exec_eq_complete, hf.result, frameResult_short f hk hl]
  rfl

/-- A keyed command with a frame of at least one block stores its frame at the start of DOUT. -/
theorem RunsFrame.exec_stores (hf : RunsFrame i f) (hk : s.keyed = true) (hl : 16 ≤ s.len.toNat) :
    exec i s = .next (s.storeFrame f) := by
  rw [exec_eq_complete, hf.result, frameResult_ok f hk hl, inputFrame_eq_frame]
  rfl

theorem RunsFrame.length_frameOut (hf : RunsFrame i f) (hl : 16 ≤ s.len.toNat) :
    (s.frameOut f).length = s.len.toNat := by
  have hx := Memory.length_frame s.din s.len.toNat
  rw [State.frameOut, hf.length _ _ _ (by omega), hx]

/-- DOUT[0..L) after the store is the stored frame (R163, R165). -/
theorem RunsFrame.read_stored (hf : RunsFrame i f) (hl : 16 ≤ s.len.toNat) (hw : Memory.wf s.dout = true)
    {j : Nat} (hj : j < s.len.toNat) :
    Memory.read (s.storeFrame f).dout j = (s.frameOut f).getD j 0#8 := by
  have hlen := hf.length_frameOut hl
  rw [State.storeFrame, Memory.read_writeBytes hw, if_pos (by omega), Nat.sub_zero]

/-- The store keeps DOUT[L..255] (10_state.md R38). -/
theorem RunsFrame.read_beyond (hf : RunsFrame i f) (hl : 16 ≤ s.len.toNat) (hw : Memory.wf s.dout = true)
    {j : Nat} (hj : s.len.toNat ≤ j) :
    Memory.read (s.storeFrame f).dout j = Memory.read s.dout j := by
  have hlen := hf.length_frameOut hl
  rw [State.storeFrame, Memory.read_writeBytes hw, if_neg (by omega)]

/-- What a keyed command does, on a frame of at least one block: the form of O16 and O17. -/
theorem RunsFrame.exec_writes (hf : RunsFrame i f) (hk : s.keyed = true) (hl : 16 ≤ s.len.toNat)
    (hw : Memory.wf s.dout = true) :
    ∃ d, exec i s = .next { s with dout := d, err := .ok, busy := false, done := true } ∧
      (∀ j < s.len.toNat, Memory.read d j = (s.frameOut f).getD j 0#8) ∧
      (∀ j, s.len.toNat ≤ j → Memory.read d j = Memory.read s.dout j) :=
  ⟨_, hf.exec_stores hk hl, fun _ => hf.read_stored hl hw, fun _ => hf.read_beyond hl hw⟩

end

theorem exists_runsFrame {i : Instr} (hi : i = .encrypt ∨ i = .decrypt) : ∃ f, RunsFrame i f := by
  rcases hi with rfl | rfl
  · exact ⟨_, runsFrame_encrypt⟩
  · exact ⟨_, runsFrame_decrypt⟩

/-- DECRYPT of an encrypted frame stores the frame that was encrypted (R166). -/
theorem exec_decrypt_encrypted {v u : State} {x : List Byte} (hk : v.keyed = true)
    (hl : 16 ≤ v.len.toNat) (hw : Memory.wf v.dout = true) (hx : x.length = v.len.toNat)
    (hin : Memory.frame v.din v.len.toNat = frameEnc Config.blockCipher v.skey v.siv x)
    (hu : exec .decrypt v = .next u) :
    u.err = .ok ∧ ∀ j < v.len.toNat, Memory.read u.dout j = x.getD j 0#8 := by
  have hdec := runsFrame_decrypt
  cases (hdec.exec_stores hk hl).symm.trans hu
  refine ⟨rfl, fun j hj => ?_⟩
  rw [hdec.read_stored hl hw hj, State.frameOut, hin,
    frameDec_frameEnc (c := Config.blockCipher) aesDecrypt_aesEncrypt _ _ (by omega)]

/-! ### The statements -/

/-- Settles O16. -/
theorem encryptWritesTheFrame : Obligations.EncryptWritesTheFrame := by
  unfold Obligations.EncryptWritesTheFrame
  exact fun _ hk hl hw => runsFrame_encrypt.exec_writes hk hl hw

/-- Settles O17. -/
theorem decryptWritesTheFrame : Obligations.DecryptWritesTheFrame := by
  unfold Obligations.DecryptWritesTheFrame
  exact fun _ hk hl hw => runsFrame_decrypt.exec_writes hk hl hw

/-- Settles O27: by the cases of the two checks, which both states pass or fail alike. -/
theorem cipherIsStateless : Obligations.CipherIsStateless := by
  unfold Obligations.CipherIsStateless
  intro i s s' t t' hi hkeyed hskey hsiv hlen hdin hw hw' ht ht'
  obtain ⟨f, hf⟩ := exists_runsFrame hi
  cases hk : s.keyed with
  | false =>
    rw [hf.exec_notKeyed hk] at ht
    rw [hf.exec_notKeyed (hkeyed ▸ hk)] at ht'
    cases ht
    cases ht'
    exact ⟨rfl, nofun⟩
  | true =>
    have hk' : s'.keyed = true := hkeyed ▸ hk
    by_cases hl : s.len.toNat < 16
    · rw [hf.exec_short hk hl] at ht
      rw [hf.exec_short hk' (hlen ▸ hl)] at ht'
      cases ht
      cases ht'
      exact ⟨rfl, nofun⟩
    · have hl : 16 ≤ s.len.toNat := Nat.not_lt.1 hl
      have hl' : 16 ≤ s'.len.toNat := hlen ▸ hl
      have hout : s.frameOut f = s'.frameOut f := by
        rw [State.frameOut, State.frameOut, ← hskey, ← hsiv, ← hlen, Memory.frame_congr hdin]
      rw [hf.exec_stores hk hl] at ht
      rw [hf.exec_stores hk' hl'] at ht'
      cases ht
      cases ht'
      refine ⟨rfl, fun _ j hj => ?_⟩
      calc Memory.read (s.storeFrame f).dout j
          = (s.frameOut f).getD j 0#8 := hf.read_stored hl hw hj
        _ = (s'.frameOut f).getD j 0#8 := by rw [hout]
        _ = Memory.read (s'.storeFrame f).dout j :=
          (hf.read_stored hl' hw' (hlen ▸ hj)).symm

/-- Settles O28. -/
theorem middleStaysPlaintext : Obligations.MiddleStaysPlaintext := by
  unfold Obligations.MiddleStaysPlaintext
  intro c K IV x h
  exact ⟨length_frameEnc c K IV x h, length_frameDec c K IV x h, fun j h16 hj =>
    ⟨getD_frameEnc_middle c K IV h16 hj, getD_frameDec_middle c K IV h16 hj⟩⟩

/-- Settles O29: the working copy is the frame after the leading block was encrypted, and the trailing
block is read from it. -/
theorem trailingBlockAfterLeading : Obligations.TrailingBlockAfterLeading := by
  unfold Obligations.TrailingBlockAfterLeading
  intro c K IV x h lead work trail
  have hlen := length_encryptAt c K IV 0 x (by omega)
  have hlead : cbcEnc c K IV (blockAt x 0) = lead := by
    simp only [cbcEnc, blockAt, Nat.zero_add, lead]
  have hwork : ∀ j, (encryptAt c K IV 0 x).getD j 0#8 = work j := fun j => by
    rw [getD_encryptAt c K IV (by omega), hlead, Nat.sub_zero]
    simp only [Nat.zero_le, true_and, Nat.zero_add, work]
  have htrail : cbcEnc c K IV (blockAt (encryptAt c K IV 0 x) (x.length - 16)) = trail := by
    simp only [cbcEnc, blockAt, hwork, trail]
  refine ⟨length_frameEnc c K IV x h, fun j hj => ?_⟩
  by_cases hl : 16 < x.length
  · rw [frameEnc_long c K IV x hl, getD_encryptAt c K IV (by omega), htrail, hwork]
    exact if_congr (by omega) rfl rfl
  · rw [frameEnc_short c K IV x hl, hwork, if_neg (fun hlong => hl hlong.1)]

/-- Settles O30: this hardware's cipher is one whose directions undo each other. -/
theorem frameRoundTrip : Obligations.FrameRoundTrip := by
  unfold Obligations.FrameRoundTrip
  exact ⟨fun K IV x h => ⟨frameDec_frameEnc (c := Config.blockCipher) aesDecrypt_aesEncrypt K IV h,
      frameEnc_frameDec (c := Config.blockCipher) aesEncrypt_aesDecrypt K IV h⟩,
    fun c hDE hED K IV x h => ⟨frameDec_frameEnc hDE K IV h, frameEnc_frameDec hED K IV h⟩⟩

/-- Settles O32: the copied input frame is the encrypted one. -/
theorem encryptThenDecryptRestores : Obligations.EncryptThenDecryptRestores := by
  unfold Obligations.EncryptThenDecryptRestores
  intro s t u copy hk hl hw ht hcopy hu
  have henc := runsFrame_encrypt
  have hlen := henc.length_frameOut (s := s) hl
  cases (henc.exec_stores hk hl).symm.trans ht
  have hin : Memory.frame copy s.len.toNat = s.frameOut (frameEnc Config.blockCipher) := by
    rw [← hlen]
    refine Memory.frame_eq_of_read fun j hj => ?_
    rw [hlen] at hj
    rw [hcopy j hj, henc.read_stored hl hw hj]
  obtain ⟨herr, hread⟩ := exec_decrypt_encrypted
    (v := { s.storeFrame (frameEnc Config.blockCipher) with din := copy }) hk hl
    (Memory.wf_writeBytes hw 0 _) (Memory.length_frame s.din s.len.toNat) hin hu
  exact ⟨herr, fun j hj => (hread j hj).trans (Memory.getD_frame s.din hj)⟩

/-- Settles O18. -/
theorem cipherRefusals : Obligations.CipherRefusals := by
  unfold Obligations.CipherRefusals
  exact fun _ => ⟨fun hk => ⟨runsFrame_encrypt.exec_notKeyed hk, runsFrame_decrypt.exec_notKeyed hk⟩,
    fun hk hl => ⟨runsFrame_encrypt.exec_short hk hl, runsFrame_decrypt.exec_short hk hl⟩⟩

end Sys2Proof.Machine

/-! ## The block primitive (44_block_primitive.md)

First the key schedule: one round key from the one before it, then the words of a round key, in the terms of
R186. Then the S-box: its affine map and the preimage of an entry under it, which is the inverse that R184
speaks of. Then the statements. -/

namespace Sys2Proof.Machine

/-! ### Key schedule -/

@[simp] theorem getD_expandFrom_zero (k : Block) (rcs : List Byte) :
    (expandFrom k rcs).getD 0 Block.zero = k := by
  cases rcs <;> rfl

/-- The expansion takes one `nextRoundKey` for each round constant, in order. -/
theorem getD_expandFrom_succ (k : Block) {rcs : List Byte} {r : Nat} (h : r < rcs.length) :
    (expandFrom k rcs).getD (r + 1) Block.zero =
      nextRoundKey ((expandFrom k rcs).getD r Block.zero) (rcs.getD r 0#8) := by
  induction rcs generalizing k r with
  | nil => exact absurd h (Nat.not_lt_zero r)
  | cons rc rest ih =>
    rw [expandFrom, List.getD_cons_succ]
    cases r with
    | zero => rw [getD_expandFrom_zero, List.getD_cons_zero, List.getD_cons_zero]
    | succ r => rw [ih _ (Nat.lt_of_succ_lt_succ h), List.getD_cons_succ, List.getD_cons_succ]

theorem quad_zero_nextRoundKey (k : Block) (rc : Byte) :
    (nextRoundKey k rc).quad 0 = (k.quad 0).xor (scheduleCore (k.quad 3) rc) := rfl

/-- Within a round key, a word is the word one round earlier xored with the word before it. -/
theorem quad_succ_nextRoundKey (k : Block) (rc : Byte) {c : Nat} (h : c < 3) :
    (nextRoundKey k rc).quad (c + 1) = (k.quad (c + 1)).xor ((nextRoundKey k rc).quad c) := by
  interval_cases c <;> rfl

/-- The word `w[i]` of R186: quad `i mod 4` of round key `i div 4`. -/
def scheduleWord (K : Block) (i : Nat) : Quad := ((roundKeys K).getD (i / 4) Block.zero).quad (i % 4)

/-- Word `c` of round key `r`. -/
theorem scheduleWord_of_lt (K : Block) (r : Nat) {c : Nat} (h : c < 4) :
    scheduleWord K (4 * r + c) = ((roundKeys K).getD r Block.zero).quad c := by
  rw [scheduleWord, show (4 * r + c) / 4 = r by omega, show (4 * r + c) % 4 = c by omega]

/-- The first four words are the key's own (R186). -/
theorem scheduleWord_key (K : Block) {i : Nat} (h : i < 4) : scheduleWord K i = K.quad i := by
  have hword := scheduleWord_of_lt K 0 h
  rwa [Nat.mul_zero, Nat.zero_add, roundKeys, getD_expandFrom_zero] at hword

theorem getD_roundKeys_succ (K : Block) {r : Nat} (h : r < 10) :
    (roundKeys K).getD (r + 1) Block.zero =
      nextRoundKey ((roundKeys K).getD r Block.zero) (rcons.getD r 0#8) :=
  getD_expandFrom_succ K h

/-- The first word of a round key takes the last word of the round key before through the core (R186). -/
theorem scheduleWord_first (K : Block) {r : Nat} (h : r < 10) :
    scheduleWord K (4 * (r + 1)) =
      (scheduleWord K (4 * r)).xor (scheduleCore (scheduleWord K (4 * r + 3)) (rcons.getD r 0#8)) := by
  have hfirst : ∀ r, scheduleWord K (4 * r) = ((roundKeys K).getD r Block.zero).quad 0 := fun r =>
    scheduleWord_of_lt K r (c := 0) (by omega)
  rw [hfirst, hfirst, scheduleWord_of_lt K r (by omega), getD_roundKeys_succ K h, quad_zero_nextRoundKey]

/-- Every other word of a round key (R186). -/
theorem scheduleWord_later (K : Block) {r c : Nat} (h : r < 10) (hc : c < 3) :
    scheduleWord K (4 * (r + 1) + (c + 1)) =
      (scheduleWord K (4 * r + (c + 1))).xor (scheduleWord K (4 * (r + 1) + c)) := by
  rw [scheduleWord_of_lt K _ (by omega), scheduleWord_of_lt K _ (by omega),
    scheduleWord_of_lt K _ (by omega), getD_roundKeys_succ K h, quad_succ_nextRoundKey _ _ hc]

/-! ### S-box -/

/-- The affine map of R184. -/
def sboxAffine (b : Byte) : Byte :=
  b ^^^ b.rotateLeft 1 ^^^ b.rotateLeft 2 ^^^ b.rotateLeft 3 ^^^ b.rotateLeft 4 ^^^ 0x63#8

/-- The inverse of the affine map of R184. -/
def sboxAffineInv (y : Byte) : Byte := y.rotateLeft 1 ^^^ y.rotateLeft 3 ^^^ y.rotateLeft 6 ^^^ 0x05#8

theorem sboxAffine_sboxAffineInv : ∀ y : Byte, sboxAffine (sboxAffineInv y) = y := by decide +kernel

theorem sboxAffineInv_sbox_zero : sboxAffineInv (sbox 0#8) = 0#8 := by decide

/-- The affine preimage of the entry for `a` is the multiplicative inverse of `a` (R184). -/
theorem gfMul_sboxAffineInv_sbox : ∀ a : Byte, a ≠ 0#8 → gfMul a (sboxAffineInv (sbox a)) = 1#8 := by
  decide +kernel

/-! ### Statements -/

/-- Settles O31: a function with a two-sided inverse is a bijection. -/
theorem blockCipherIsInvertible : Obligations.BlockCipherIsInvertible := by
  unfold Obligations.BlockCipherIsInvertible
  exact ⟨aesDecrypt_aesEncrypt, aesEncrypt_aesDecrypt, fun K =>
    Function.bijective_iff_has_inverse.mpr ⟨aesDecrypt K, aesDecrypt_aesEncrypt K, aesEncrypt_aesDecrypt K⟩⟩

/-- Settles O35: a word from `w[4]` on is the first of its round key or a later one. -/
theorem keyScheduleWords : Obligations.KeyScheduleWords := by
  unfold Obligations.KeyScheduleWords
  intro K w rcon
  have hw : ∀ i, w i = scheduleWord K i := fun _ => rfl
  refine ⟨fun i hi => scheduleWord_key K hi, fun i h4 h44 => ?_⟩
  obtain ⟨r, c, hc, rfl⟩ : ∃ r c, c < 4 ∧ i = 4 * (r + 1) + c := ⟨i / 4 - 1, i % 4, by omega, by omega⟩
  have hr : r < 10 := by omega
  simp only [hw]
  cases c with
  | zero =>
    have hrcon : rcon (r + 1) = rcons.getD r 0#8 := List.getD_cons_succ
    rw [if_pos (by omega), Nat.add_zero, scheduleWord_first K hr, scheduleCore,
      show 4 * (r + 1) / 4 = r + 1 by omega, hrcon, show 4 * (r + 1) - 4 = 4 * r by omega,
      show 4 * (r + 1) - 1 = 4 * r + 3 by omega]
  | succ c =>
    rw [if_neg (by omega), scheduleWord_later K hr (by omega),
      show 4 * (r + 1) + (c + 1) - 4 = 4 * r + (c + 1) by omega,
      show 4 * (r + 1) + (c + 1) - 1 = 4 * (r + 1) + c by omega]

/-- Settles O33: the forward direction is evaluated, and the inverse cipher takes its result back. -/
theorem referenceVector : Obligations.ReferenceVector := by
  unfold Obligations.ReferenceVector
  intro K X Y
  have hE : aesEncrypt K X = Y := by decide +kernel
  exact ⟨hE, hE ▸ aesDecrypt_aesEncrypt K X⟩

/-- Settles O34: the inverse is the affine preimage of the entry. -/
theorem sboxIsTheFormula : Obligations.SboxIsTheFormula := by
  unfold Obligations.SboxIsTheFormula
  intro a
  refine ⟨sboxAffineInv (sbox a), ?_, gfMul_sboxAffineInv_sbox a, (sboxAffine_sboxAffineInv (sbox a)).symm⟩
  rintro rfl
  exact sboxAffineInv_sbox_zero

end Sys2Proof.Machine

/-! ## Errors and the interrupt (60_exceptions.md)

First that no command reads ERR: its pending writes leave ERR as it was, and its completion overwrites it.
Then the interrupt output by DONE. Then the statements. -/

namespace Sys2Proof.Machine

/-! ### No command reads ERR -/

/-- The checks and the store of ENCRYPT and DECRYPT neither read nor write ERR (60_exceptions.md R215). -/
theorem frameResult_with_err (s : State) (c : ErrorCode) (f : Block → Block → List Byte → List Byte) :
    frameResult { s with err := c } f = (frameResult s f).map fun p => { p with err := c } := by
  simp only [frameResult, apply_ite (Except.map _)]
  rfl

/-- No command's pending writes depend on ERR or change it (60_exceptions.md R215). -/
theorem commandResult_with_err (i : Instr) (s : State) (c : ErrorCode) :
    commandResult i { s with err := c } = (commandResult i s).map fun p => { p with err := c } := by
  cases i with
  | nop | clear => rfl
  | derive =>
    simp only [commandResult, deriveResult, apply_ite (Except.map _)]
    rfl
  | encrypt | decrypt => exact frameResult_with_err s c _
  | getbw src start n le =>
    simp only [commandResult, getbwResult, apply_ite (Except.map _)]
    cases src <;> rfl

/-- An earlier error code does not reach a command's outcome: the completion overwrites it
(40_command_cycle.md R104, 60_exceptions.md R215). -/
theorem exec_with_err (i : Instr) (s : State) (c : ErrorCode) : exec i { s with err := c } = exec i s := by
  rw [exec_eq_complete, exec_eq_complete, commandResult_with_err]
  cases commandResult i s with
  | ok p => rfl
  | error e => rfl

/-! ### The interrupt output -/

/-- With DONE = 1 the interrupt output follows CTRL.IE (60_exceptions.md R216). -/
theorem State.irq_of_done {s : State} (h : s.done = true) : s.irq = s.ie := by
  rw [State.irq, h, Bool.and_true]

/-- With DONE = 0 the interrupt output is low (60_exceptions.md R216). -/
theorem State.irq_of_not_done {s : State} (h : s.done = false) : s.irq = false := by
  rw [State.irq, h, Bool.and_false]

/-- After a command's completion the interrupt output is CTRL.IE (60_exceptions.md R214, R216). -/
theorem exec_irq {i : Instr} {s t : State} (h : exec i s = .next t) : t.irq = s.ie := by
  have hdone : t.done = true := by rw [exec_frame h]
  have hie : t.ie = s.ie := by rw [exec_frame h]
  exact (State.irq_of_done hdone).trans hie

/-! ### The statements -/

/-- Settles O26: the completion overwrites ERR, and COLLIDE is carried through. -/
theorem commandsIgnoreCollideAndErr : Obligations.CommandsIgnoreCollideAndErr := by
  unfold Obligations.CommandsIgnoreCollideAndErr
  intro i s t b c h
  calc exec i { s with collide := b, err := c }
      _ = exec i { s with collide := b } := exec_with_err i { s with collide := b } c
      _ = .next { t with collide := b } := exec_with_collide b h

/-- Settles O49: a completion sets DONE, an acknowledgement and a launch clear it. -/
theorem interruptFollowsCompletion : Obligations.InterruptFollowsCompletion := by
  unfold Obligations.InterruptFollowsCompletion
  intro s
  obtain ⟨hctrl, _⟩ := controlWritesAlwaysTake s 1#32
  obtain ⟨_, hstatus⟩ := controlWritesAlwaysTake s 0x00000002#32
  refine ⟨rfl, fun i t => exec_irq, fun hdone => ?enable, ?acknowledge, fun w hb => ?launch⟩
  case enable =>
    rw [hctrl]
    exact State.irq_of_done hdone
  case acknowledge =>
    rw [hstatus]
    exact State.irq_of_not_done (Bool.and_false s.done)
  case launch =>
    rw [launchTakesEveryWord s w hb]
    exact State.irq_of_not_done rfl

end Sys2Proof.Machine

/-! ## Reset (70_reset_and_hazards.md)

First what asserting reset leaves of a state, and the host's turn while reset is asserted. Then the
statements. -/

namespace Sys2Proof.Machine

/-- Asserting reset leaves of the earlier state only the model's own fields: the waiting inputs, the latest
response and the count of free values (70_reset_and_hazards.md R240, log 8). -/
theorem State.assertReset_eq_reset_with (s : State) :
    s.assertReset =
      { State.reset with
          resetLine := true, inputs := s.inputs, response := s.response, drawn := s.drawn } := rfl

/-- A host access while reset is asserted is refused (70_reset_and_hazards.md R240, log 8). -/
theorem hostTurn_refused_in_reset {s : State} (h : s.resetLine = true) (a : HostAccess) :
    hostTurn a s = .refused .hostAccessDuringReset := by
  simp [hostTurn, h]

/-- Settles O51: the step takes the assertion, which asks nothing of the state. -/
theorem resetWinsAnywhere : Obligations.ResetWinsAnywhere := by
  unfold Obligations.ResetWinsAnywhere
  intro s rest
  rw [step_with_cons, takeInput, State.assertReset_eq_reset_with]

/-- Settles O52: the release leaves the reset input low, so the access after it is one step. -/
theorem noHostStepsDuringReset : Obligations.NoHostStepsDuringReset := by
  unfold Obligations.NoHostStepsDuringReset
  intro s a rest
  refine ⟨fun hreset => ?refused, State.releaseReset { s with inputs := .host a :: rest }, ?release, ?access⟩
  case refused =>
    rw [step_with_cons, takeInput]
    exact hostTurn_refused_in_reset (s := { s with inputs := rest }) hreset a
  case release => rw [step_with_cons, takeInput]
  case access => exact hostAccessIsOneStep { s with resetLine := false } a rest rfl

end Sys2Proof.Machine
